-- ==== Sys2Proof/Word.lean ====
section
/-! DEFINITION. The word types of the core: everything here is a width the spec states. -/

namespace Sys2Proof

/-- A 32-bit value: a register, the program counter, an instruction word, an address (`XLEN` and `ILEN`, `00_scope.md` R6). -/
abbrev Word := BitVec 32

/-- One byte of either memory (`20_memory.md` R50). -/
abbrev Byte := BitVec 8

/-- A register field: an unsigned index 0..31 into `x` (`30_encoding.md` R81). -/
abbrev Reg := BitVec 5

end Sys2Proof
end

