-- ==== Sys2Proof/Syntax.lean ====
section
/-! DEFINITION. The instructions: one constructor for each of the 28 rows of `spec/opcode_table.json`
(`30_encoding.md` R95), each with every field its word holds, so that no bit of a word is lost. -/

namespace Sys2Proof

/-- An instruction. Operands stand in the assembler order of `30_encoding.md` R106. An I-format immediate is the
12-bit field `w[31:20]`, an S-format one the 12-bit value of R90; a branch offset is the 13-bit value of R91 and a JAL
offset the 21-bit value of R92, both with their implied low bit; a U immediate is the 20-bit field `w[31:12]`. `f3` is
the funct3 field of LOAD, STORE and JALR words, which selects nothing (R103). -/
inductive Instr where
  | add (rd rs1 rs2 : Reg)
  | sub (rd rs1 rs2 : Reg)
  | sll (rd rs1 rs2 : Reg)
  | xor (rd rs1 rs2 : Reg)
  | srl (rd rs1 rs2 : Reg)
  | or (rd rs1 rs2 : Reg)
  | and (rd rs1 rs2 : Reg)
  | mul (rd rs1 rs2 : Reg)
  | div (rd rs1 rs2 : Reg)
  | rem (rd rs1 rs2 : Reg)
  | addi (rd rs1 : Reg) (imm : BitVec 12)
  | slli (rd rs1 : Reg) (imm : BitVec 12)
  | xori (rd rs1 : Reg) (imm : BitVec 12)
  | srli (rd rs1 : Reg) (imm : BitVec 12)
  | ori (rd rs1 : Reg) (imm : BitVec 12)
  | andi (rd rs1 : Reg) (imm : BitVec 12)
  | lw (rd rs1 : Reg) (imm : BitVec 12) (f3 : BitVec 3)
  | sw (rs2 rs1 : Reg) (imm : BitVec 12) (f3 : BitVec 3)
  | beq (rs1 rs2 : Reg) (off : BitVec 13)
  | bne (rs1 rs2 : Reg) (off : BitVec 13)
  | blt (rs1 rs2 : Reg) (off : BitVec 13)
  | bge (rs1 rs2 : Reg) (off : BitVec 13)
  | bltu (rs1 rs2 : Reg) (off : BitVec 13)
  | bgeu (rs1 rs2 : Reg) (off : BitVec 13)
  | jal (rd : Reg) (off : BitVec 21)
  | jalr (rd rs1 : Reg) (imm : BitVec 12) (f3 : BitVec 3)
  | lui (rd : Reg) (imm : BitVec 20)
  | auipc (rd : Reg) (imm : BitVec 20)
deriving DecidableEq, Repr

end Sys2Proof
end

