-- ==== Sys2Proof/WellFormed.lean ====
section
/-! DEFINITION. Which instructions have a word: all of them, but for a branch or JAL offset that is odd, since "the
immediate has no bit 0 in the word; it is always even" (`30_encoding.md` R86, R88). -/

namespace Sys2Proof

/-- An even branch offset (`30_encoding.md` R86). -/
def evenBranchOffset (off : BitVec 13) : Bool := off.extractLsb' 0 1 == 0#1

/-- An even JAL offset (`30_encoding.md` R88). -/
def evenJumpOffset (off : BitVec 21) : Bool := off.extractLsb' 0 1 == 0#1

/-- The instruction can be encoded. Every register field, every 12-bit and 20-bit immediate and every value of an
unexamined funct3 (`30_encoding.md` R103) is admitted. -/
def Instr.wellFormed : Instr → Bool
  | .add _ _ _ => true
  | .sub _ _ _ => true
  | .sll _ _ _ => true
  | .xor _ _ _ => true
  | .srl _ _ _ => true
  | .or _ _ _ => true
  | .and _ _ _ => true
  | .mul _ _ _ => true
  | .div _ _ _ => true
  | .rem _ _ _ => true
  | .addi _ _ _ => true
  | .slli _ _ _ => true
  | .xori _ _ _ => true
  | .srli _ _ _ => true
  | .ori _ _ _ => true
  | .andi _ _ _ => true
  | .lw _ _ _ _ => true
  | .sw _ _ _ _ => true
  | .beq _ _ off => evenBranchOffset off
  | .bne _ _ off => evenBranchOffset off
  | .blt _ _ off => evenBranchOffset off
  | .bge _ _ off => evenBranchOffset off
  | .bltu _ _ off => evenBranchOffset off
  | .bgeu _ _ off => evenBranchOffset off
  | .jal _ off => evenJumpOffset off
  | .jalr _ _ _ _ => true
  | .lui _ _ => true
  | .auipc _ _ => true

end Sys2Proof
end

