-- ==== Sys2Proof/Decode.lean ====
section
/-! DEFINITION. Field extraction, the decoder, and the encoder (`30_encoding.md`). The decoder is total: it answers an
instruction or names why the word is none (R100, R101, R102). The bit positions and numeric codes are the spec's
decisions D1 to D4 (UNVERIFIED: entry 1). -/

namespace Sys2Proof

/-! ## Bytes and words (`20_memory.md` R51) -/

/-- Byte `k` of a word: byte 0 is bits 7:0. -/
def byteOf (v : Word) (k : Nat) : Byte := v.extractLsb' (8 * k) 8

/-- The word whose bytes, lowest address first, are `b0 b1 b2 b3`: little-endian (`20_memory.md` R51). -/
def wordOfBytes (b0 b1 b2 b3 : Byte) : Word := b3 ++ b2 ++ b1 ++ b0

/-! ## Fields (`30_encoding.md` R81) -/

def opcodeOf (w : Word) : BitVec 7 := w.extractLsb' 0 7
def rdOf (w : Word) : Reg := w.extractLsb' 7 5
def funct3Of (w : Word) : BitVec 3 := w.extractLsb' 12 3
def rs1Of (w : Word) : Reg := w.extractLsb' 15 5
def rs2Of (w : Word) : Reg := w.extractLsb' 20 5
def funct7Of (w : Word) : BitVec 7 := w.extractLsb' 25 7

/-- The OP class's function code `funct7 ‖ funct3` (`30_encoding.md` R94, decision D3). -/
def functOp (w : Word) : BitVec 10 := funct7Of w ++ funct3Of w

/-! ## Immediate fields (`30_encoding.md` R89 to R93), before any extension -/

/-- `w[31:20]` (R89). -/
def iField (w : Word) : BitVec 12 := w.extractLsb' 20 12
/-- `w[31:25] ‖ w[11:7]` (R90). -/
def sField (w : Word) : BitVec 12 := w.extractLsb' 25 7 ++ w.extractLsb' 7 5
/-- `w[31] ‖ w[7] ‖ w[30:25] ‖ w[11:8] ‖ 0` (R91). -/
def bField (w : Word) : BitVec 13 :=
  w.extractLsb' 31 1 ++ w.extractLsb' 7 1 ++ w.extractLsb' 25 6 ++ w.extractLsb' 8 4 ++ 0#1
/-- `w[31] ‖ w[19:12] ‖ w[20] ‖ w[30:21] ‖ 0` (R92). -/
def jField (w : Word) : BitVec 21 :=
  w.extractLsb' 31 1 ++ w.extractLsb' 12 8 ++ w.extractLsb' 20 1 ++ w.extractLsb' 21 10 ++ 0#1
/-- `w[31:12]` (R93). -/
def uField (w : Word) : BitVec 20 := w.extractLsb' 12 20

/-! ## The decoder -/

/-- The nine opcode classes (`30_encoding.md` R82). -/
inductive OpClass where
  | op | opImm | load | jalr | store | branch | jal | lui | auipc
deriving DecidableEq, Repr

/-- Why a word is no instruction. Each is fatal; the step that meets it adds the program counter. -/
inductive DecodeError where
  /-- The opcode is not one of the nine (`30_encoding.md` R100). -/
  | illegalOpcode
  /-- An OP or OP-IMM word whose function code is not one of the ten (R101). -/
  | illegalAluOp (code : BitVec 10)
  /-- A BRANCH word with funct3 010 or 011 (R102). -/
  | illegalBranchCond (f3 : BitVec 3)
deriving DecidableEq, Repr

/-- The opcode map (`30_encoding.md` R82, decision D1). -/
def opClass (opcode : BitVec 7) : Option OpClass :=
  match opcode with
  | 0x33#7 => some .op
  | 0x13#7 => some .opImm
  | 0x03#7 => some .load
  | 0x67#7 => some .jalr
  | 0x23#7 => some .store
  | 0x63#7 => some .branch
  | 0x6F#7 => some .jal
  | 0x37#7 => some .lui
  | 0x17#7 => some .auipc
  | _ => none

/-- OP words, by the ten function codes (`30_encoding.md` R95, R101). -/
def decodeOp (w : Word) : Except DecodeError Instr :=
  match functOp w with
  | 0x000#10 => .ok (.add (rdOf w) (rs1Of w) (rs2Of w))
  | 0x100#10 => .ok (.sub (rdOf w) (rs1Of w) (rs2Of w))
  | 0x001#10 => .ok (.sll (rdOf w) (rs1Of w) (rs2Of w))
  | 0x004#10 => .ok (.xor (rdOf w) (rs1Of w) (rs2Of w))
  | 0x005#10 => .ok (.srl (rdOf w) (rs1Of w) (rs2Of w))
  | 0x006#10 => .ok (.or (rdOf w) (rs1Of w) (rs2Of w))
  | 0x007#10 => .ok (.and (rdOf w) (rs1Of w) (rs2Of w))
  | 0x008#10 => .ok (.mul (rdOf w) (rs1Of w) (rs2Of w))
  | 0x00C#10 => .ok (.div (rdOf w) (rs1Of w) (rs2Of w))
  | 0x00E#10 => .ok (.rem (rdOf w) (rs1Of w) (rs2Of w))
  | code => .error (.illegalAluOp code)

/-- OP-IMM words, by funct3 alone: bits 31:25 are immediate bits for all six (`42_alu_immediate.md` R170, R177). -/
def decodeOpImm (w : Word) : Except DecodeError Instr :=
  match funct3Of w with
  | 0#3 => .ok (.addi (rdOf w) (rs1Of w) (iField w))
  | 1#3 => .ok (.slli (rdOf w) (rs1Of w) (iField w))
  | 4#3 => .ok (.xori (rdOf w) (rs1Of w) (iField w))
  | 5#3 => .ok (.srli (rdOf w) (rs1Of w) (iField w))
  | 6#3 => .ok (.ori (rdOf w) (rs1Of w) (iField w))
  | 7#3 => .ok (.andi (rdOf w) (rs1Of w) (iField w))
  | f3 => .error (.illegalAluOp (f3.setWidth 10))

/-- BRANCH words, by funct3 (`44_branch.md` R190, R197). -/
def decodeBranch (w : Word) : Except DecodeError Instr :=
  match funct3Of w with
  | 0#3 => .ok (.beq (rs1Of w) (rs2Of w) (bField w))
  | 1#3 => .ok (.bne (rs1Of w) (rs2Of w) (bField w))
  | 4#3 => .ok (.blt (rs1Of w) (rs2Of w) (bField w))
  | 5#3 => .ok (.bge (rs1Of w) (rs2Of w) (bField w))
  | 6#3 => .ok (.bltu (rs1Of w) (rs2Of w) (bField w))
  | 7#3 => .ok (.bgeu (rs1Of w) (rs2Of w) (bField w))
  | f3 => .error (.illegalBranchCond f3)

/-- The instruction a word stands for (`30_encoding.md` R95, R100 to R103). The funct3 of LOAD, STORE and JALR words
is kept and not examined (R103). -/
def decode (w : Word) : Except DecodeError Instr :=
  match opClass (opcodeOf w) with
  | some .op => decodeOp w
  | some .opImm => decodeOpImm w
  | some .load => .ok (.lw (rdOf w) (rs1Of w) (iField w) (funct3Of w))
  | some .jalr => .ok (.jalr (rdOf w) (rs1Of w) (iField w) (funct3Of w))
  | some .store => .ok (.sw (rs2Of w) (rs1Of w) (sField w) (funct3Of w))
  | some .branch => decodeBranch w
  | some .jal => .ok (.jal (rdOf w) (jField w))
  | some .lui => .ok (.lui (rdOf w) (uField w))
  | some .auipc => .ok (.auipc (rdOf w) (uField w))
  | none => .error .illegalOpcode

/-- Decoding from the four bytes of an instruction as memory holds them (`30_encoding.md` R80). -/
def decodeBytes (b0 b1 b2 b3 : Byte) : Except DecodeError Instr := decode (wordOfBytes b0 b1 b2 b3)

/-- The instruction of a table row's word: its bits above `nbits` are 0, and every instruction is 32 bits (R80). -/
def tableWord (nbits w : Nat) : Word := BitVec.ofNat 32 (w % 2 ^ nbits)

/-- The decoder on a word numbered as `spec/opcode_table.json` numbers it, laid out as memory stores it. -/
def decodeTableWord (nbits w : Nat) : Option Instr :=
  let v := tableWord nbits w
  match decodeBytes (byteOf v 0) (byteOf v 1) (byteOf v 2) (byteOf v 3) with
  | .ok i => some i
  | .error _ => none

/-! ## The encoder (`30_encoding.md` R109): each format's word from its fields. `Obligations.FieldsRoundTrip` states R110
of these and of the fields and immediates above. -/

def encR (f7 : BitVec 7) (rs2 rs1 : Reg) (f3 : BitVec 3) (rd : Reg) (op : BitVec 7) : Word :=
  f7 ++ rs2 ++ rs1 ++ f3 ++ rd ++ op

def encI (i : BitVec 12) (rs1 : Reg) (f3 : BitVec 3) (rd : Reg) (op : BitVec 7) : Word :=
  i ++ rs1 ++ f3 ++ rd ++ op

def encS (i : BitVec 12) (rs2 rs1 : Reg) (f3 : BitVec 3) (op : BitVec 7) : Word :=
  i.extractLsb' 5 7 ++ rs2 ++ rs1 ++ f3 ++ i.extractLsb' 0 5 ++ op

def encB (i : BitVec 13) (rs2 rs1 : Reg) (f3 : BitVec 3) (op : BitVec 7) : Word :=
  i.extractLsb' 12 1 ++ i.extractLsb' 5 6 ++ rs2 ++ rs1 ++ f3 ++ i.extractLsb' 1 4 ++ i.extractLsb' 11 1 ++ op

def encU (i : BitVec 20) (rd : Reg) (op : BitVec 7) : Word := i ++ rd ++ op

def encJ (i : BitVec 21) (rd : Reg) (op : BitVec 7) : Word :=
  i.extractLsb' 20 1 ++ i.extractLsb' 1 10 ++ i.extractLsb' 11 1 ++ i.extractLsb' 12 8 ++ rd ++ op

/-- The word of an instruction (`30_encoding.md` R95, R109). -/
def encode : Instr → Word
  | .add rd rs1 rs2 => encR 0x00#7 rs2 rs1 0#3 rd 0x33#7
  | .sub rd rs1 rs2 => encR 0x20#7 rs2 rs1 0#3 rd 0x33#7
  | .sll rd rs1 rs2 => encR 0x00#7 rs2 rs1 1#3 rd 0x33#7
  | .xor rd rs1 rs2 => encR 0x00#7 rs2 rs1 4#3 rd 0x33#7
  | .srl rd rs1 rs2 => encR 0x00#7 rs2 rs1 5#3 rd 0x33#7
  | .or rd rs1 rs2 => encR 0x00#7 rs2 rs1 6#3 rd 0x33#7
  | .and rd rs1 rs2 => encR 0x00#7 rs2 rs1 7#3 rd 0x33#7
  | .mul rd rs1 rs2 => encR 0x01#7 rs2 rs1 0#3 rd 0x33#7
  | .div rd rs1 rs2 => encR 0x01#7 rs2 rs1 4#3 rd 0x33#7
  | .rem rd rs1 rs2 => encR 0x01#7 rs2 rs1 6#3 rd 0x33#7
  | .addi rd rs1 imm => encI imm rs1 0#3 rd 0x13#7
  | .slli rd rs1 imm => encI imm rs1 1#3 rd 0x13#7
  | .xori rd rs1 imm => encI imm rs1 4#3 rd 0x13#7
  | .srli rd rs1 imm => encI imm rs1 5#3 rd 0x13#7
  | .ori rd rs1 imm => encI imm rs1 6#3 rd 0x13#7
  | .andi rd rs1 imm => encI imm rs1 7#3 rd 0x13#7
  | .lw rd rs1 imm f3 => encI imm rs1 f3 rd 0x03#7
  | .sw rs2 rs1 imm f3 => encS imm rs2 rs1 f3 0x23#7
  | .beq rs1 rs2 off => encB off rs2 rs1 0#3 0x63#7
  | .bne rs1 rs2 off => encB off rs2 rs1 1#3 0x63#7
  | .blt rs1 rs2 off => encB off rs2 rs1 4#3 0x63#7
  | .bge rs1 rs2 off => encB off rs2 rs1 5#3 0x63#7
  | .bltu rs1 rs2 off => encB off rs2 rs1 6#3 0x63#7
  | .bgeu rs1 rs2 off => encB off rs2 rs1 7#3 0x63#7
  | .jal rd off => encJ off rd 0x6F#7
  | .jalr rd rs1 imm f3 => encI imm rs1 f3 rd 0x67#7
  | .lui rd imm => encU imm rd 0x37#7
  | .auipc rd imm => encU imm rd 0x17#7

/-! ## The rows of the opcode table (`30_encoding.md` R95): a word is the row's instruction when `w AND mask = match` -/

/-- The `mask` of the instruction's row. -/
def rowMask : Instr → Word
  | .add _ _ _ => 0xFE00707F#32
  | .sub _ _ _ => 0xFE00707F#32
  | .sll _ _ _ => 0xFE00707F#32
  | .xor _ _ _ => 0xFE00707F#32
  | .srl _ _ _ => 0xFE00707F#32
  | .or _ _ _ => 0xFE00707F#32
  | .and _ _ _ => 0xFE00707F#32
  | .mul _ _ _ => 0xFE00707F#32
  | .div _ _ _ => 0xFE00707F#32
  | .rem _ _ _ => 0xFE00707F#32
  | .addi _ _ _ => 0x0000707F#32
  | .slli _ _ _ => 0x0000707F#32
  | .xori _ _ _ => 0x0000707F#32
  | .srli _ _ _ => 0x0000707F#32
  | .ori _ _ _ => 0x0000707F#32
  | .andi _ _ _ => 0x0000707F#32
  | .lw _ _ _ _ => 0x0000007F#32
  | .sw _ _ _ _ => 0x0000007F#32
  | .beq _ _ _ => 0x0000707F#32
  | .bne _ _ _ => 0x0000707F#32
  | .blt _ _ _ => 0x0000707F#32
  | .bge _ _ _ => 0x0000707F#32
  | .bltu _ _ _ => 0x0000707F#32
  | .bgeu _ _ _ => 0x0000707F#32
  | .jal _ _ => 0x0000007F#32
  | .jalr _ _ _ _ => 0x0000007F#32
  | .lui _ _ => 0x0000007F#32
  | .auipc _ _ => 0x0000007F#32

/-- The `match` of the instruction's row. -/
def rowMatch : Instr → Word
  | .add _ _ _ => 0x00000033#32
  | .sub _ _ _ => 0x40000033#32
  | .sll _ _ _ => 0x00001033#32
  | .xor _ _ _ => 0x00004033#32
  | .srl _ _ _ => 0x00005033#32
  | .or _ _ _ => 0x00006033#32
  | .and _ _ _ => 0x00007033#32
  | .mul _ _ _ => 0x02000033#32
  | .div _ _ _ => 0x02004033#32
  | .rem _ _ _ => 0x02006033#32
  | .addi _ _ _ => 0x00000013#32
  | .slli _ _ _ => 0x00001013#32
  | .xori _ _ _ => 0x00004013#32
  | .srli _ _ _ => 0x00005013#32
  | .ori _ _ _ => 0x00006013#32
  | .andi _ _ _ => 0x00007013#32
  | .lw _ _ _ _ => 0x00000003#32
  | .sw _ _ _ _ => 0x00000023#32
  | .beq _ _ _ => 0x00000063#32
  | .bne _ _ _ => 0x00001063#32
  | .blt _ _ _ => 0x00004063#32
  | .bge _ _ _ => 0x00005063#32
  | .bltu _ _ _ => 0x00006063#32
  | .bgeu _ _ _ => 0x00007063#32
  | .jal _ _ => 0x0000006F#32
  | .jalr _ _ _ _ => 0x00000067#32
  | .lui _ _ => 0x00000037#32
  | .auipc _ _ => 0x00000017#32

end Sys2Proof
end

