-- ==== Sys2Proof/Config.lean ====
section
/-! DEFINITION. What is fixed for one machine: the constants of `00_scope.md` R6 and the launch parameters that the
spec says a model takes as an argument (`92_eei_decisions.md`, "Parameters a model takes, gathered"). The spec has no
value that is open for ever (`93_implementation_defined.md` section 1), so there is no free value here. -/

namespace Sys2Proof

/-- `SHAMT_RULE` (`92_eei_decisions.md` D5): what a shift does with an amount operand of 32 or more. -/
inductive ShamtRule where
  /-- The amount is bits 4:0 of operand B; the others are ignored. The spec's default. -/
  | low5
  /-- The amount is the whole of operand B; the result is 0 when it is 32 or more. -/
  | full
deriving DecidableEq, Repr

/-- `DIV_CORNER_RULE` (`92_eei_decisions.md` D6): DIV and REM by zero and of `-2^31` by `-1`. -/
inductive DivCornerRule where
  /-- The RISC-V M results. The spec's default. -/
  | riscv
  /-- The model gives no result for these operand pairs. -/
  | refuse
deriving DecidableEq, Repr

/-- The launch parameters. `IMEM_IMAGE` and the presets of registers, pc and data memory are not here: they are
contents of the state, placed by `Machine/HostInterface.lean`. -/
structure Params where
  /-- `DMEM_SIZE`, the bytes of data memory (`92_eei_decisions.md` D12). -/
  dmemSize : Nat
  shamt : ShamtRule
  divCorner : DivCornerRule
  /-- `STRICT_FUNCT3` (`92_eei_decisions.md` D10). -/
  strictFunct3 : Bool
deriving DecidableEq, Repr

/-- `DMEM_SIZE` is "a positive multiple of 4" (`00_scope.md` R6). -/
def Params.wf (p : Params) : Bool := decide (0 < p.dmemSize) && decide (p.dmemSize % 4 = 0)

namespace Config

/-- The defaults of `00_scope.md` R6. -/
def defaults : Params :=
  { dmemSize := 32768, shamt := .low5, divCorner := .riscv, strictFunct3 := false }

/-- `IMEM_SIZE`: 32 KiB (`00_scope.md` R6). -/
def imemSize : Nat := 32768

/-- `IMEM_IMAGE` is "a list of at most 8192 32-bit words" (`00_scope.md` R6). -/
def maxProgramWords : Nat := 8192

/-- `RESET_PC` (`00_scope.md` R6). -/
def resetPc : Word := 0

/-- `HALT_REG` (`00_scope.md` R6). -/
def haltReg : Reg := 31

/-- `HALT_SENTINEL` (`00_scope.md` R6). -/
def haltSentinel : Word := 0xDEADBEEF

end Config

end Sys2Proof
end

