-- ==== Sys2Proof/Machine/State.lean ====
section
/-! DEFINITION. The state of the core (`10_state.md` R20: "the following and nothing else"), the faults it raises and
the refusals of the model. The transient bundles `D` and `C` are no state (R39); `Machine/Datapath.lean` has them. -/

namespace Sys2Proof.Machine

/-- The faults of `60_exceptions.md` R221, each with the info its diagnostic identifies. A fault is not an answer of
`step`: it is what `run` is Aborted with (R240; entry 3). `WbSelInvalid` cannot be raised and is left out, as R227
allows (entry 12). All are safe, in that no claim about results follows from an aborted run (R241), but for the two
bounds faults and the two that rest on the numeric codes, whose rules are the spec's own decisions (entries 1, 8). -/
inductive Fault where
  /-- Raised by the fetch when `pc` is not a multiple of 4 (R222). Safe. -/
  | fetchMisaligned (pc : Word)
  /-- Raised by the fetch when `pc` is aligned and outside instruction memory (R223, decision D13). Safe. -/
  | fetchOutOfRange (pc : Word)
  /-- Raised by the decoder when the opcode is not one of the nine (R224). Unsafe where decision D1 is wrong. -/
  | illegalOpcode (pc w : Word)
  /-- Raised by the ALU on an OP or OP-IMM word with an unrecognized function code (R225). Unsafe where D3, D4 are
  wrong. -/
  | illegalAluOp (pc : Word) (code : BitVec 10)
  /-- Raised by the branch unit on funct3 010 or 011 (R226). Unsafe where D4 is wrong. -/
  | illegalBranchCond (pc : Word) (f3 : BitVec 3)
  /-- Raised by LW and SW when the effective address is not a multiple of 4 (R228). Safe. -/
  | dataMisaligned (ea : Word)
  /-- Raised by LW and SW when it is aligned and outside data memory (R229, decision D13). Safe. -/
  | dataOutOfRange (ea : Word)
  /-- Raised by the program loader on a malformed line, before any cycle (R230). Safe. -/
  | loadError (line : Nat)
deriving DecidableEq, Repr

/-- What the model gives no behaviour to. With the spec's default parameters no step answers one. -/
inductive Refusal where
  /-- Raised by an arm of `exec` that has no meaning yet; there is none. Safe. -/
  | notModelled (mnemonic : String)
  /-- Raised by DIV and REM under `DIV_CORNER_RULE = refuse`, on a zero divisor or `-2^31` by `-1`
  (`92_eei_decisions.md` D6: "the model gives no result for these operand pairs"). Safe. -/
  | divisionCorner (a b : Word)
  /-- Raised by LW, SW and JALR under `STRICT_FUNCT3 = true`, on a funct3 that is not the canonical one
  (`30_encoding.md` R103: "refuse (not fault)"). Safe. -/
  | nonCanonicalFunct3 (f3 : BitVec 3)
  /-- Raised by a host preset of `x[0]` (`93_implementation_defined.md` U11: "`refuse`: not a legal start state").
  Safe. -/
  | presetZeroRegister
  /-- Raised by a host preset of a data byte that does not exist (entry 11). Safe. -/
  | presetOutsideDataMemory (a : Nat)
  /-- Raised by the loader on a line of fewer than 32 binary digits (`93_implementation_defined.md` U14). Safe. -/
  | shortProgramLine (line : Nat)
  /-- Raised by the loader on a program of more than 8192 words (`93_implementation_defined.md` U14). Safe. -/
  | programTooLong (words : Nat)
deriving DecidableEq, Repr

/-- The scheduler's state (`10_state.md` R33). -/
inductive RunState where
  | running
  | halted
  | aborted (f : Fault)
deriving DecidableEq, Repr

/-- Either memory: the bytes that differ from `Memory.unlisted`, at strictly rising addresses. -/
abbrev Memory := List Host.Cell

/-- What a byte that nothing has written reads as, in both memories: 0 (`10_state.md` R41, decision D14; entry 2). -/
def Memory.unlisted : Byte := 0

/-- The canonical form: addresses strictly rising and no entry equal to what an unlisted address reads as. -/
def Memory.wf (m : Memory) : Bool :=
  decide (List.Pairwise (fun c d : Host.Cell => c.1 < d.1) m) && m.all (fun c => c.2 != Memory.unlisted)

/-- The state of the core. -/
structure State where
  /-- The launch parameters: the model's own field, which no step writes (entry 4). -/
  params : Params
  /-- The general registers (`10_state.md` R21). The cell of `x[0]` is real and never written (`90_conflicts.md` C6). -/
  x : Vector Word 32
  /-- The program counter (R25). -/
  pc : Word
  /-- The cycle counter, unbounded (R32). -/
  clock : Nat
  /-- The scheduler's state (R33). -/
  run : RunState
  /-- Instruction memory (R34). -/
  imem : Memory
  /-- Data memory (R35). -/
  dmem : Memory
  /-- The data addresses whose `touched` bit is true, strictly rising (R36). -/
  touched : List Nat
deriving DecidableEq, Repr

/-- The state after reset (`10_state.md` R41, `70_reset_and_hazards.md` R260), with the default parameters and no
program placed (entry 9). -/
def State.reset : State :=
  { params := Config.defaults
    x := Vector.replicate 32 0
    pc := Config.resetPc
    clock := 0
    run := .running
    imem := []
    dmem := []
    touched := [] }

end Sys2Proof.Machine
end

