-- ==== Sys2Proof/Machine/Ops.lean ====
section
/-! DEFINITION. The named operations over memory, registers and the run: every meaning is written over these. -/

namespace Sys2Proof.Machine

/-! ## Bytes of a memory -/

/-- One byte (`20_memory.md` R50). -/
def Memory.read : Memory → Nat → Byte
  | [], _ => Memory.unlisted
  | c :: m, a => if c.1 = a then c.2 else Memory.read m a

/-- A cell put before the first cell with a larger address. -/
def Memory.insertCell (c : Host.Cell) : Memory → Memory
  | [] => [c]
  | d :: m => if c.1 < d.1 then c :: d :: m else d :: Memory.insertCell c m

/-- One byte replaced. Writing what an unlisted address reads as removes the entry, so the form stays canonical. -/
def Memory.write (m : Memory) (a : Nat) (b : Byte) : Memory :=
  let rest : Memory := m.filter (fun c => decide (c.1 ≠ a))
  if b = Memory.unlisted then rest else Memory.insertCell (a, b) rest

/-- The little-endian word at `a` (`20_memory.md` R51). -/
def Memory.readWord (m : Memory) (a : Nat) : Word :=
  wordOfBytes (m.read a) (m.read (a + 1)) (m.read (a + 2)) (m.read (a + 3))

/-- A word stored little-endian at `a` (`20_memory.md` R51, R58). -/
def Memory.writeWord (m : Memory) (a : Nat) (v : Word) : Memory :=
  let m0 : Memory := m.write a (byteOf v 0)
  let m1 : Memory := m0.write (a + 1) (byteOf v 1)
  let m2 : Memory := m1.write (a + 2) (byteOf v 2)
  m2.write (a + 3) (byteOf v 3)

/-! ## The touched map (`10_state.md` R36) -/

/-- Marking one byte. -/
def touch (a : Nat) : List Nat → List Nat
  | [] => [a]
  | b :: t => if a < b then a :: b :: t else if a = b then b :: t else b :: touch a t

/-- Marking the four bytes a store covers, whether or not their value changes (`20_memory.md` R58). -/
def touchWord (t : List Nat) (a : Nat) : List Nat :=
  touch (a + 3) (touch (a + 2) (touch (a + 1) (touch a t)))

/-! ## Registers -/

/-- The read `x[i]` (`10_state.md` R21). It does not mask index 0: `x[0]` is 0 because nothing writes it
(`90_conflicts.md` C6). -/
def State.readReg (s : State) (i : Reg) : Word := s.x[i.toNat]

/-- The write `x[i] <- v`, which does nothing when `i = 0` (`10_state.md` R23). -/
def State.writeReg (s : State) (i : Reg) (v : Word) : State :=
  if i = 0 then s else { s with x := s.x.set i.toNat v }

/-! ## Aborting: the only exception entry there is (`60_exceptions.md` R240) -/

/-- `raise E(info)`: the run becomes Aborted and nothing else changes (`40_execute_cycle.md` R139, `60_exceptions.md`
R240). Nothing is saved and there is no handler; there is no return either (R242). -/
def raise (f : Fault) (s : State) : Host.Outcome State Fault Refusal :=
  .next { s with run := .aborted f }

/-! ## Halting (`40_execute_cycle.md` R137) -/

/-- The check at the top of a cycle: all 32 bits of `x[31]`. -/
def State.haltRequested (s : State) : Bool := s.readReg Config.haltReg == Config.haltSentinel

/-- The run ends normally; nothing is fetched and `clock` stays. -/
def State.halt (s : State) : State := { s with run := .halted }

/-! ## Memory accesses -/

/-- `a[1:0] = 0` (`20_memory.md` R52). -/
def wordAligned (a : Word) : Bool := a.extractLsb' 0 2 == 0#2

/-- The word at `a` lies inside a memory of `size` bytes; the sum is unbounded (`20_memory.md` R53). -/
def insideMemory (size : Nat) (a : Word) : Bool := decide (a.toNat + 3 < size)

/-- `IFetch(pc)` (`20_memory.md` R54). -/
def State.ifetch (s : State) : Except Fault Word :=
  if !wordAligned s.pc then .error (.fetchMisaligned s.pc)
  else if !insideMemory Config.imemSize s.pc then .error (.fetchOutOfRange s.pc)
  else .ok (s.imem.readWord s.pc.toNat)

/-- `MemRead(a, 4)` (`20_memory.md` R57). -/
def State.memRead (s : State) (a : Word) : Except Fault Word :=
  if !wordAligned a then .error (.dataMisaligned a)
  else if !insideMemory s.params.dmemSize a then .error (.dataOutOfRange a)
  else .ok (s.dmem.readWord a.toNat)

/-- The store itself, after its checks: four bytes written and marked (`20_memory.md` R58). -/
def State.storeWord (s : State) (a : Nat) (v : Word) : State :=
  { s with dmem := s.dmem.writeWord a v, touched := touchWord s.touched a }

/-- `MemWrite(a, 4, v)`: both checks come before any write (`20_memory.md` R58). -/
def State.memWrite (s : State) (a v : Word) : Except Fault State :=
  if !wordAligned a then .error (.dataMisaligned a)
  else if !insideMemory s.params.dmemSize a then .error (.dataOutOfRange a)
  else .ok (s.storeWord a.toNat v)

/-! ## The end of a cycle -/

/-- The PC update and the clock increment (`40_execute_cycle.md` R135, R136). -/
def State.advanceTo (s : State) (target : Word) : State :=
  { s with pc := target, clock := s.clock + 1 }

/-- `pc + 4`, the sequential successor and the link value (`40_execute_cycle.md` R131, R135). -/
def State.pcPlus4 (s : State) : Word := s.pc + 4

/-- A cycle that writes `v` to `rd` and goes on at `target`; both were computed on the state at its start
(`40_execute_cycle.md` R138). -/
def retire (rd : Reg) (v target : Word) (s : State) : Host.Outcome State Fault Refusal :=
  .next ((s.writeReg rd v).advanceTo target)

/-- The decode fault of a word at `pc` (`60_exceptions.md` R224, R225, R226). -/
def faultOfDecodeError (pc w : Word) : DecodeError → Fault
  | .illegalOpcode => .illegalOpcode pc w
  | .illegalAluOp code => .illegalAluOp pc code
  | .illegalBranchCond f3 => .illegalBranchCond pc f3

/-- Fetch and decode: the instruction at `pc`, or the fault that ends the cycle there (`40_execute_cycle.md` R120,
steps 3 and 4). -/
def State.fetchInstr (s : State) : Except Fault Instr :=
  match s.ifetch with
  | .error f => .error f
  | .ok w =>
    match decode w with
    | .error e => .error (faultOfDecodeError s.pc w e)
    | .ok i => .ok i

/-- The model's placing of one word at `pc` in instruction memory, where such a byte exists (entry 9). -/
def State.placeAtPc (s : State) (w : Word) : State :=
  if wordAligned s.pc && insideMemory Config.imemSize s.pc then
    { s with imem := s.imem.writeWord s.pc.toNat w }
  else s

end Sys2Proof.Machine
end

