-- ==== Sys2Proof/Machine/Operands.lean ====
section
/-! DEFINITION. The operand forms: extended immediates, the effective address, the jump and branch targets, and the
check of an unexamined funct3. Sums are modulo 2^32 (`00_scope.md` R7, decision D15). -/

namespace Sys2Proof.Machine

/-- `sext_12` (`00_scope.md` R8): the I and S immediates (`30_encoding.md` R89, R90). -/
def sext12 (imm : BitVec 12) : Word := imm.signExtend 32

/-- `sext_13` (`00_scope.md` R8): the branch offset (`30_encoding.md` R91). -/
def sext13 (off : BitVec 13) : Word := off.signExtend 32

/-- `sext_21` (`00_scope.md` R8): the JAL offset (`30_encoding.md` R92). -/
def sext21 (off : BitVec 21) : Word := off.signExtend 32

/-- `imm20 ‖ 12'b0`: the U immediate, masked and not extended (`30_encoding.md` R93). -/
def upperImm (imm : BitVec 20) : Word := imm ++ 0#12

/-- Base plus displacement: the one addressing mode of LW and SW (`20_memory.md` R55) and the target of JALR
(`45_jump.md` R202), whose bit 0 is kept. -/
def State.basePlus (s : State) (rs1 : Reg) (imm : BitVec 12) : Word := s.readReg rs1 + sext12 imm

/-- The target of a taken branch (`44_branch.md` R190). -/
def State.branchTarget (s : State) (off : BitVec 13) : Word := s.pc + sext13 off

/-- The target of JAL (`45_jump.md` R201). -/
def State.jumpTarget (s : State) (off : BitVec 21) : Word := s.pc + sext21 off

/-- LOAD, STORE and JALR do not examine funct3, unless `STRICT_FUNCT3` is true (`30_encoding.md` R103). -/
def funct3Accepted (strict : Bool) (canonical f3 : BitVec 3) : Bool := !strict || f3 == canonical

/-- The canonical funct3 of LW and SW (`43_load_store.md` R180). -/
def canonicalWordFunct3 : BitVec 3 := 2

/-- The canonical funct3 of JALR (`45_jump.md` R202). -/
def canonicalJalrFunct3 : BitVec 3 := 0

end Sys2Proof.Machine
end

