-- ==== Sys2Proof/Machine/Alu.lean ====
section
/-! DEFINITION. The ten operations of the ALU (`40_execute_cycle.md` R125 to R127), as functions of the two operands.
There are no flags and no arithmetic fault. -/

namespace Sys2Proof.Machine

def aluAdd (a b : Word) : Word := a + b
def aluSub (a b : Word) : Word := a - b
def aluXor (a b : Word) : Word := a ^^^ b
def aluOr (a b : Word) : Word := a ||| b
def aluAnd (a b : Word) : Word := a &&& b

/-- Logical shift left, by `SHAMT_RULE` (`40_execute_cycle.md` R126, decision D5; entry 5). -/
def aluSll (rule : ShamtRule) (a b : Word) : Word :=
  match rule with
  | .low5 => a <<< (b.extractLsb' 0 5).toNat
  | .full => if 32 ≤ b.toNat then 0 else a <<< b.toNat

/-- Logical shift right, zeros shifted in, by `SHAMT_RULE` (`40_execute_cycle.md` R126, decision D5; entry 5). -/
def aluSrl (rule : ShamtRule) (a b : Word) : Word :=
  match rule with
  | .low5 => a >>> (b.extractLsb' 0 5).toNat
  | .full => if 32 ≤ b.toNat then 0 else a >>> b.toNat

/-- The low 32 bits of the signed product (`40_execute_cycle.md` R127, decision D7). -/
def aluMul (a b : Word) : Word := BitVec.ofInt 32 (a.toInt * b.toInt)

/-- The operand pairs whose quotient the source does not give: a zero divisor, and `-2^31` by `-1` (`40_execute_cycle.md`
R127, decision D6; entry 6). -/
def divisionCorner (a b : Word) : Bool :=
  decide (b = 0) || (decide (a = 0x80000000#32) && decide (b = 0xFFFFFFFF#32))

/-- `div(a, b)` (`40_execute_cycle.md` R127): signed, rounded toward zero. -/
def divValue (a b : Word) : Word :=
  if b = 0 then 0xFFFFFFFF#32
  else if a = 0x80000000#32 ∧ b = 0xFFFFFFFF#32 then 0x80000000#32
  else BitVec.ofInt 32 (a.toInt.tdiv b.toInt)

/-- `rem(a, b)` (`40_execute_cycle.md` R127). -/
def remValue (a b : Word) : Word :=
  if b = 0 then a
  else if a = 0x80000000#32 ∧ b = 0xFFFFFFFF#32 then 0
  else BitVec.ofInt 32 (a.toInt - b.toInt * a.toInt.tdiv b.toInt)

/-- A division result under `DIV_CORNER_RULE` (`92_eei_decisions.md` D6): `refuse` gives none at a corner. -/
def underCornerRule (rule : DivCornerRule) (a b v : Word) : Except Refusal Word :=
  match rule with
  | .riscv => .ok v
  | .refuse => if divisionCorner a b then .error (.divisionCorner a b) else .ok v

/-- DIV of the ALU. -/
def aluDiv (rule : DivCornerRule) (a b : Word) : Except Refusal Word :=
  underCornerRule rule a b (divValue a b)

/-- REM of the ALU. -/
def aluRem (rule : DivCornerRule) (a b : Word) : Except Refusal Word :=
  underCornerRule rule a b (remValue a b)

end Sys2Proof.Machine
end

