-- ==== Sys2Proof/Machine/AluImmediate.lean ====
section
/-! DEFINITION. The register-immediate ALU instructions (`42_alu_immediate.md`). The immediate is sign-extended from
bit 11 for all six, the logical operations and the shifts included (R170). -/

namespace Sys2Proof.Machine

/-- R171. -/
def execAddi (rd rs1 : Reg) (imm : BitVec 12) (s : State) : Host.Outcome State Fault Refusal :=
  retire rd (aluAdd (s.readReg rs1) (sext12 imm)) s.pcPlus4 s

/-- R172. -/
def execXori (rd rs1 : Reg) (imm : BitVec 12) (s : State) : Host.Outcome State Fault Refusal :=
  retire rd (aluXor (s.readReg rs1) (sext12 imm)) s.pcPlus4 s

/-- R173. -/
def execOri (rd rs1 : Reg) (imm : BitVec 12) (s : State) : Host.Outcome State Fault Refusal :=
  retire rd (aluOr (s.readReg rs1) (sext12 imm)) s.pcPlus4 s

/-- R174. -/
def execAndi (rd rs1 : Reg) (imm : BitVec 12) (s : State) : Host.Outcome State Fault Refusal :=
  retire rd (aluAnd (s.readReg rs1) (sext12 imm)) s.pcPlus4 s

/-- R175: operand B is the whole immediate, so that under `SHAMT_RULE = low5` the amount is `w[24:20]`. -/
def execSlli (rd rs1 : Reg) (imm : BitVec 12) (s : State) : Host.Outcome State Fault Refusal :=
  retire rd (aluSll s.params.shamt (s.readReg rs1) (sext12 imm)) s.pcPlus4 s

/-- R176: a logical shift, also for the words RISC-V calls SRAI. -/
def execSrli (rd rs1 : Reg) (imm : BitVec 12) (s : State) : Host.Outcome State Fault Refusal :=
  retire rd (aluSrl s.params.shamt (s.readReg rs1) (sext12 imm)) s.pcPlus4 s

end Sys2Proof.Machine
end

