-- ==== Sys2Proof/Machine/AluRegister.lean ====
section
/-! DEFINITION. The register-register ALU instructions (`41_alu_register.md`). Both sources are read before `rd` is
written; `rd = 0` discards the result; `pc` advances by 4 (R150). -/

namespace Sys2Proof.Machine

/-- R151. -/
def execAdd (rd rs1 rs2 : Reg) (s : State) : Host.Outcome State Fault Refusal :=
  retire rd (aluAdd (s.readReg rs1) (s.readReg rs2)) s.pcPlus4 s

/-- R152: the first source is the minuend. -/
def execSub (rd rs1 rs2 : Reg) (s : State) : Host.Outcome State Fault Refusal :=
  retire rd (aluSub (s.readReg rs1) (s.readReg rs2)) s.pcPlus4 s

/-- R153. -/
def execXor (rd rs1 rs2 : Reg) (s : State) : Host.Outcome State Fault Refusal :=
  retire rd (aluXor (s.readReg rs1) (s.readReg rs2)) s.pcPlus4 s

/-- R154. -/
def execOr (rd rs1 rs2 : Reg) (s : State) : Host.Outcome State Fault Refusal :=
  retire rd (aluOr (s.readReg rs1) (s.readReg rs2)) s.pcPlus4 s

/-- R155. -/
def execAnd (rd rs1 rs2 : Reg) (s : State) : Host.Outcome State Fault Refusal :=
  retire rd (aluAnd (s.readReg rs1) (s.readReg rs2)) s.pcPlus4 s

/-- R156. -/
def execSll (rd rs1 rs2 : Reg) (s : State) : Host.Outcome State Fault Refusal :=
  retire rd (aluSll s.params.shamt (s.readReg rs1) (s.readReg rs2)) s.pcPlus4 s

/-- R157. -/
def execSrl (rd rs1 rs2 : Reg) (s : State) : Host.Outcome State Fault Refusal :=
  retire rd (aluSrl s.params.shamt (s.readReg rs1) (s.readReg rs2)) s.pcPlus4 s

/-- R158. -/
def execMul (rd rs1 rs2 : Reg) (s : State) : Host.Outcome State Fault Refusal :=
  retire rd (aluMul (s.readReg rs1) (s.readReg rs2)) s.pcPlus4 s

/-- A division retires with its result, or is refused at a corner under `DIV_CORNER_RULE = refuse`. -/
def retireDivision (rd : Reg) (result : Except Refusal Word) (s : State) : Host.Outcome State Fault Refusal :=
  match result with
  | .ok v => retire rd v s.pcPlus4 s
  | .error r => .refused r

/-- R159: the dividend is `x[rs1]`. -/
def execDiv (rd rs1 rs2 : Reg) (s : State) : Host.Outcome State Fault Refusal :=
  retireDivision rd (aluDiv s.params.divCorner (s.readReg rs1) (s.readReg rs2)) s

/-- R160. -/
def execRem (rd rs1 rs2 : Reg) (s : State) : Host.Outcome State Fault Refusal :=
  retireDivision rd (aluRem s.params.divCorner (s.readReg rs1) (s.readReg rs2)) s

end Sys2Proof.Machine
end

