-- ==== Sys2Proof/Machine/Flags.lean ====
section
/-! DEFINITION. The core has no flags (`10_state.md` R29): no instruction sets or reads one. What takes their place is
the branch-condition unit, which compares two register values afresh each time (`40_execute_cycle.md` R128). -/

namespace Sys2Proof.Machine

/-- BEQ (`44_branch.md` R191). -/
def condEq (a b : Word) : Bool := decide (a = b)
/-- BNE (R192). -/
def condNe (a b : Word) : Bool := decide (a ≠ b)
/-- BLT: signed (R193). -/
def condLt (a b : Word) : Bool := decide (a.toInt < b.toInt)
/-- BGE: signed (R194). -/
def condGe (a b : Word) : Bool := decide (b.toInt ≤ a.toInt)
/-- BLTU: unsigned (R195). -/
def condLtu (a b : Word) : Bool := decide (a.toNat < b.toNat)
/-- BGEU: unsigned (R196). -/
def condGeu (a b : Word) : Bool := decide (b.toNat ≤ a.toNat)

/-- `BranchTaken(f, a, b)` by code; none for the illegal 010 and 011 (`40_execute_cycle.md` R128). -/
def branchTaken (f3 : BitVec 3) (a b : Word) : Option Bool :=
  match f3 with
  | 0#3 => some (condEq a b)
  | 1#3 => some (condNe a b)
  | 4#3 => some (condLt a b)
  | 5#3 => some (condGe a b)
  | 6#3 => some (condLtu a b)
  | 7#3 => some (condGeu a b)
  | _ => none

/-- The gate-level form of `40_execute_cycle.md` R128: `lt` by the control flag, then one exclusive or with funct3
bit 0. -/
def branchTakenGates (unsignedCompare : Bool) (f3 : BitVec 3) (a b : Word) : Bool :=
  let lt := if unsignedCompare then condLtu a b else condLt a b
  if f3.getLsbD 2 then lt ^^ f3.getLsbD 0 else condEq a b ^^ f3.getLsbD 0

end Sys2Proof.Machine
end

