-- ==== Sys2Proof/Machine/Branch.lean ====
section
/-! DEFINITION. The conditional branches (`44_branch.md`). The target is neither checked nor masked in the branch's
cycle: a bad one faults at the next fetch (R190). -/

namespace Sys2Proof.Machine

/-- The end of a branch's cycle: no register and no memory is written (R190). -/
def retireBranch (taken : Bool) (off : BitVec 13) (s : State) : Host.Outcome State Fault Refusal :=
  .next (s.advanceTo (if taken then s.branchTarget off else s.pcPlus4))

/-- R191. -/
def execBeq (rs1 rs2 : Reg) (off : BitVec 13) (s : State) : Host.Outcome State Fault Refusal :=
  retireBranch (condEq (s.readReg rs1) (s.readReg rs2)) off s

/-- R192. -/
def execBne (rs1 rs2 : Reg) (off : BitVec 13) (s : State) : Host.Outcome State Fault Refusal :=
  retireBranch (condNe (s.readReg rs1) (s.readReg rs2)) off s

/-- R193. -/
def execBlt (rs1 rs2 : Reg) (off : BitVec 13) (s : State) : Host.Outcome State Fault Refusal :=
  retireBranch (condLt (s.readReg rs1) (s.readReg rs2)) off s

/-- R194. -/
def execBge (rs1 rs2 : Reg) (off : BitVec 13) (s : State) : Host.Outcome State Fault Refusal :=
  retireBranch (condGe (s.readReg rs1) (s.readReg rs2)) off s

/-- R195. -/
def execBltu (rs1 rs2 : Reg) (off : BitVec 13) (s : State) : Host.Outcome State Fault Refusal :=
  retireBranch (condLtu (s.readReg rs1) (s.readReg rs2)) off s

/-- R196. -/
def execBgeu (rs1 rs2 : Reg) (off : BitVec 13) (s : State) : Host.Outcome State Fault Refusal :=
  retireBranch (condGeu (s.readReg rs1) (s.readReg rs2)) off s

end Sys2Proof.Machine
end

