-- ==== Sys2Proof/Machine/Jump.lean ====
section
/-! DEFINITION. JAL and JALR (`45_jump.md`): the link is `pc + 4` (R200), the target is unchecked and unmasked. -/

namespace Sys2Proof.Machine

/-- R201. -/
def execJal (rd : Reg) (off : BitVec 21) (s : State) : Host.Outcome State Fault Refusal :=
  retire rd s.pcPlus4 (s.jumpTarget off) s

/-- R202: the target is read before `rd` is written, and its bit 0 is kept. -/
def execJalr (rd rs1 : Reg) (imm : BitVec 12) (f3 : BitVec 3) (s : State) : Host.Outcome State Fault Refusal :=
  if funct3Accepted s.params.strictFunct3 canonicalJalrFunct3 f3 then
    retire rd s.pcPlus4 (s.basePlus rs1 imm) s
  else .refused (.nonCanonicalFunct3 f3)

end Sys2Proof.Machine
end

