-- ==== Sys2Proof/Machine/LoadStore.lean ====
section
/-! DEFINITION. LW and SW (`43_load_store.md`). -/

namespace Sys2Proof.Machine

/-- R181, R183. The checks and the read happen also for `rd = 0`; the base is not modified. -/
def execLw (rd rs1 : Reg) (imm : BitVec 12) (f3 : BitVec 3) (s : State) : Host.Outcome State Fault Refusal :=
  if funct3Accepted s.params.strictFunct3 canonicalWordFunct3 f3 then
    match s.memRead (s.basePlus rs1 imm) with
    | .error f => raise f s
    | .ok v => retire rd v s.pcPlus4 s
  else .refused (.nonCanonicalFunct3 f3)

/-- R182, R183. The data is `x[rs2]` (`40_execute_cycle.md` R130, decision D11); no register is written. -/
def execSw (rs2 rs1 : Reg) (imm : BitVec 12) (f3 : BitVec 3) (s : State) : Host.Outcome State Fault Refusal :=
  if funct3Accepted s.params.strictFunct3 canonicalWordFunct3 f3 then
    match s.memWrite (s.basePlus rs1 imm) (s.readReg rs2) with
    | .error f => raise f s
    | .ok t => .next (t.advanceTo s.pcPlus4)
  else .refused (.nonCanonicalFunct3 f3)

end Sys2Proof.Machine
end

