-- ==== Sys2Proof/Machine/UpperImmediate.lean ====
section
/-! DEFINITION. LUI and AUIPC (`46_upper_immediate.md`). -/

namespace Sys2Proof.Machine

/-- R211: the adder's operand A is 0, so the result is the immediate itself. -/
def execLui (rd : Reg) (imm : BitVec 20) (s : State) : Host.Outcome State Fault Refusal :=
  retire rd (upperImm imm) s.pcPlus4 s

/-- R212: `pc` is the address of this instruction. -/
def execAuipc (rd : Reg) (imm : BitVec 20) (s : State) : Host.Outcome State Fault Refusal :=
  retire rd (aluAdd s.pc (upperImm imm)) s.pcPlus4 s

end Sys2Proof.Machine
end

