-- ==== Sys2Proof/Machine/Step.lean ====
section
/-! DEFINITION. One step of the scheduler (`40_execute_cycle.md` R139), and the placing of one instruction where the
next step fetches. -/

namespace Sys2Proof.Machine

/-- One cycle while Running; Halted and Aborted are terminal and change nothing (`10_state.md` R33; entry 3). -/
def step (s : State) : Host.Outcome State Fault Refusal :=
  match s.run with
  | .halted => .next s
  | .aborted _ => .next s
  | .running =>
    if s.haltRequested then .next s.halt
    else
      match s.fetchInstr with
      | .error f => raise f s
      | .ok i => exec i s

/-- The state with a table row's word at `pc`, where the next step fetches (entry 9). -/
def State.withFetchWord (s : State) (nbits w : Nat) : State := s.placeAtPc (tableWord nbits w)

end Sys2Proof.Machine
end

