-- ==== Sys2Proof/Machine/Datapath.lean ====
section
/-! DEFINITION. The same cycle as the hardware's blocks do it: decoded bundle, control bundle, operand selection, ALU,
branch unit, memory stage, write-back, PC sequencer, scheduler (`10_state.md` R37 to R40, `30_encoding.md` R96 to R99,
`40_execute_cycle.md` R120 to R139). `step` does not use it: the two are two designs from two parts of the spec, and
`Obligations.StepIsTheDatapath` says that they agree. -/

namespace Sys2Proof.Machine

/-- The write-back selector (`10_state.md` R38, decision D19). -/
inductive WbSel where
  | none | alu | mem | pcPlus4
deriving DecidableEq, Repr

/-- The control bundle `C` (`10_state.md` R38). -/
structure Control where
  wbSel : WbSel
  pcSrcTarget : Bool
  aluAIsPc : Bool
  aluBIsImm : Bool
  brUnsigned : Bool
deriving DecidableEq, Repr

/-- "Reset to all-false/none at the start of every cycle before decode" (`10_state.md` R38). -/
def clearedControl : Control :=
  { wbSel := .none, pcSrcTarget := false, aluAIsPc := false, aluBIsImm := false, brUnsigned := false }

/-- The decoded bundle `D` (`10_state.md` R37). -/
structure Decoded where
  opcode : BitVec 7
  funct : BitVec 10
  rs1val : Word
  rs2val : Word
  rd : Reg
  imm : Word
deriving DecidableEq, Repr

/-- The bundle a cycle starts from: every item a class does not extract stays 0 (`30_encoding.md` R97, decisions D8,
D9). -/
def clearedDecoded (w : Word) : Decoded :=
  { opcode := opcodeOf w, funct := 0, rs1val := 0, rs2val := 0, rd := 0, imm := 0 }

/-- Why a cycle ends early. -/
inductive CycleEnd where
  | fault (f : Fault)
  | refusal (r : Refusal)
deriving DecidableEq, Repr

/-! ## Immediates as 32-bit values (`30_encoding.md` R89 to R93) -/

def immI (w : Word) : Word := sext12 (iField w)
def immS (w : Word) : Word := sext12 (sField w)
def immB (w : Word) : Word := sext13 (bField w)
def immJ (w : Word) : Word := sext21 (jField w)
/-- `w AND 0xFFFFF000` (`30_encoding.md` R93). -/
def immU (w : Word) : Word := w &&& 0xFFFFF000#32

/-! ## The decoder -/

/-- The decoded bundle per opcode class (`30_encoding.md` R97). -/
def decodedBundle (c : OpClass) (w : Word) (s : State) : Decoded :=
  let d := clearedDecoded w
  let f3 : BitVec 10 := (funct3Of w).setWidth 10
  match c with
  | .op => { d with funct := functOp w, rs1val := s.readReg (rs1Of w), rs2val := s.readReg (rs2Of w), rd := rdOf w }
  | .opImm => { d with funct := f3, rs1val := s.readReg (rs1Of w), rd := rdOf w, imm := immI w }
  | .load => { d with funct := f3, rs1val := s.readReg (rs1Of w), rd := rdOf w, imm := immI w }
  | .jalr => { d with funct := f3, rs1val := s.readReg (rs1Of w), rd := rdOf w, imm := immI w }
  | .store => { d with funct := f3, rs1val := s.readReg (rs1Of w), rs2val := s.readReg (rs2Of w), imm := immS w }
  | .branch => { d with funct := f3, rs1val := s.readReg (rs1Of w), rs2val := s.readReg (rs2Of w), imm := immB w }
  | .jal => { d with rd := rdOf w, imm := immJ w }
  | .lui => { d with rd := rdOf w, imm := immU w }
  | .auipc => { d with rd := rdOf w, imm := immU w }

/-- The control-signal table (`30_encoding.md` R98). -/
def controlBundle (c : OpClass) (w : Word) : Control :=
  match c with
  | .op => { clearedControl with wbSel := .alu }
  | .opImm => { clearedControl with wbSel := .alu, aluBIsImm := true }
  | .load => { clearedControl with wbSel := .mem, aluBIsImm := true }
  | .jalr => { clearedControl with wbSel := .pcPlus4, pcSrcTarget := true, aluBIsImm := true }
  | .store => { clearedControl with aluBIsImm := true }
  | .branch => { clearedControl with aluAIsPc := true, aluBIsImm := true, brUnsigned := w.getLsbD 13 }
  | .jal => { clearedControl with wbSel := .pcPlus4, pcSrcTarget := true, aluAIsPc := true, aluBIsImm := true }
  | .lui => { clearedControl with wbSel := .alu, aluBIsImm := true }
  | .auipc => { clearedControl with wbSel := .alu, aluAIsPc := true, aluBIsImm := true }

/-- The refusals of `STRICT_FUNCT3 = true` (`30_encoding.md` R103). -/
def strictCheck (strict : Bool) (c : OpClass) (f3 : BitVec 3) : Bool :=
  match c with
  | .load => funct3Accepted strict canonicalWordFunct3 f3
  | .store => funct3Accepted strict canonicalWordFunct3 f3
  | .jalr => funct3Accepted strict canonicalJalrFunct3 f3
  | .op => true
  | .opImm => true
  | .branch => true
  | .jal => true
  | .lui => true
  | .auipc => true

/-- The decoder: both bundles, or `IllegalOpcode` (`30_encoding.md` R96, R100). -/
def decodeStage (w : Word) (s : State) : Except CycleEnd (Decoded × Control) :=
  match opClass (opcodeOf w) with
  | none => .error (.fault (.illegalOpcode s.pc w))
  | some c =>
    if strictCheck s.params.strictFunct3 c (funct3Of w) then .ok (decodedBundle c w s, controlBundle c w)
    else .error (.refusal (.nonCanonicalFunct3 (funct3Of w)))

/-! ## The execution unit -/

/-- Operand A (`40_execute_cycle.md` R121). -/
def operandA (pc : Word) (d : Decoded) (c : Control) : Word := if c.aluAIsPc then pc else d.rs1val

/-- Operand B (`40_execute_cycle.md` R122). -/
def operandB (d : Decoded) (c : Control) : Word := if c.aluBIsImm then d.imm else d.rs2val

/-- `aluUsesFunct` (`30_encoding.md` R99). -/
def aluUsesFunct (d : Decoded) : Bool := opClass d.opcode == some .op || opClass d.opcode == some .opImm

/-- The ALU operation code; addition for every other class (`40_execute_cycle.md` R124). -/
def aluCode (d : Decoded) : BitVec 10 := if aluUsesFunct d then d.funct else 0

/-- A division result as an ALU result. -/
def aluDivision : Except Refusal Word → Except CycleEnd Word
  | .ok v => .ok v
  | .error r => .error (.refusal r)

/-- `AluOp(code, a, b)` (`40_execute_cycle.md` R125). -/
def aluOp (p : Params) (pc : Word) (code : BitVec 10) (a b : Word) : Except CycleEnd Word :=
  match code with
  | 0x000#10 => .ok (aluAdd a b)
  | 0x100#10 => .ok (aluSub a b)
  | 0x004#10 => .ok (aluXor a b)
  | 0x006#10 => .ok (aluOr a b)
  | 0x007#10 => .ok (aluAnd a b)
  | 0x001#10 => .ok (aluSll p.shamt a b)
  | 0x005#10 => .ok (aluSrl p.shamt a b)
  | 0x008#10 => .ok (aluMul a b)
  | 0x00C#10 => aluDivision (aluDiv p.divCorner a b)
  | 0x00E#10 => aluDivision (aluRem p.divCorner a b)
  | c => .error (.fault (.illegalAluOp pc c))

/-- `isBranch` (`30_encoding.md` R99). -/
def isBranch (d : Decoded) : Bool := opClass d.opcode == some .branch

/-- The branch unit: it sets `C.pcSrcTarget` for the BRANCH class only, comparing the two register values by the
gate-level form (`40_execute_cycle.md` R128, R129). -/
def branchUnit (pc : Word) (d : Decoded) (c : Control) : Except CycleEnd Control :=
  let f3 : BitVec 3 := d.funct.extractLsb' 0 3
  if isBranch d then
    if f3 == 2#3 || f3 == 3#3 then .error (.fault (.illegalBranchCond pc f3))
    else .ok { c with pcSrcTarget := branchTakenGates c.brUnsigned f3 d.rs1val d.rs2val }
  else .ok c

/-! ## The memory stage, write-back and the PC sequencer -/

/-- The memory stage: the state with the store done, and `memResult` (0 where there is none, and then not used)
(`40_execute_cycle.md` R130). -/
def memoryStage (d : Decoded) (aluResult : Word) (s : State) : Except CycleEnd (State × Word) :=
  if opClass d.opcode == some .load then
    match s.memRead aluResult with
    | .error f => .error (.fault f)
    | .ok m => .ok (s, m)
  else if opClass d.opcode == some .store then
    match s.memWrite aluResult d.rs2val with
    | .error f => .error (.fault f)
    | .ok t => .ok (t, 0)
  else .ok (s, 0)

/-- Write-back (`40_execute_cycle.md` R132); `link` is `pc + 4` (R131). -/
def writeBack (d : Decoded) (c : Control) (aluResult memResult link : Word) (s : State) : State :=
  if d.rd = 0 then s
  else
    match c.wbSel with
    | .none => s
    | .alu => s.writeReg d.rd aluResult
    | .mem => s.writeReg d.rd memResult
    | .pcPlus4 => s.writeReg d.rd link

/-- The PC sequencer (`40_execute_cycle.md` R135). -/
def nextPc (c : Control) (aluResult pc : Word) : Word := if c.pcSrcTarget then aluResult else pc + 4

/-- Steps 4 to 9 of a cycle, on the word `w` (`40_execute_cycle.md` R120, R139). -/
def datapath (w : Word) (s : State) : Except CycleEnd State :=
  match decodeStage w s with
  | .error e => .error e
  | .ok (d, c) =>
    match aluOp s.params s.pc (aluCode d) (operandA s.pc d c) (operandB d c) with
    | .error e => .error e
    | .ok r =>
      match branchUnit s.pc d c with
      | .error e => .error e
      | .ok c' =>
        match memoryStage d r s with
        | .error e => .error e
        | .ok (t, m) =>
          .ok { writeBack d c' r m (s.pc + 4) t with pc := nextPc c' r s.pc, clock := s.clock + 1 }

/-- The scheduler over the datapath (`40_execute_cycle.md` R139, R140). -/
def datapathStep (s : State) : Host.Outcome State Fault Refusal :=
  if s.run = .running then
    if s.readReg 31 = 0xDEADBEEF#32 then .next { s with run := .halted }
    else
      match s.ifetch with
      | .error f => .next { s with run := .aborted f }
      | .ok w =>
        match datapath w s with
        | .error (.fault f) => .next { s with run := .aborted f }
        | .error (.refusal r) => .refused r
        | .ok t => .next t
  else .next s

end Sys2Proof.Machine
end

