-- ==== Sys2Proof/Machine/HostInterface.lean ====
section
/-! DEFINITION. What the host does before the first cycle and after the last: the program load, the presets and the
run report (`70_reset_and_hazards.md` R262 to R267, `60_exceptions.md` R252). `step` uses none of it. -/

namespace Sys2Proof.Machine

/-! ## Program load -/

/-- Instruction memory holding the words from address `a` upward, every other byte 0 (`10_state.md` R41). -/
def imageFrom (a : Nat) : List Word → Memory
  | [] => []
  | w :: ws => (imageFrom (a + 4) ws).writeWord a w

/-- `IMEM_IMAGE` placed from instruction address 0 (`70_reset_and_hazards.md` R264); more than 8192 words are refused
(`93_implementation_defined.md` U14; entry 10). -/
def loadImage (ws : List Word) (s : State) : Host.Outcome State Fault Refusal :=
  if Config.maxProgramWords < ws.length then .refused (.programTooLong ws.length)
  else .next { s with imem := imageFrom 0 ws }

/-- The lines of a program source: newline-terminated, the last newline optional (`30_encoding.md` R108; entry 10). -/
def sourceLines : List Char → List (List Char)
  | [] => []
  | c :: cs =>
    if c = '\n' then [] :: sourceLines cs
    else
      match sourceLines cs with
      | [] => [[c]]
      | l :: ls => (c :: l) :: ls

/-- The value of binary digits, most significant first; none where a character is no digit. -/
def binaryValue (acc : Nat) : List Char → Option Nat
  | [] => some acc
  | c :: cs =>
    if c = '0' then binaryValue (2 * acc) cs
    else if c = '1' then binaryValue (2 * acc + 1) cs
    else none

/-- The words of a program source, `n` being the number of its first line: blank lines are skipped, a non-binary or
too wide line is `LoadError` of its number (`70_reset_and_hazards.md` R264), a line of fewer than 32 digits is refused
(`93_implementation_defined.md` U14; entry 10). -/
def parseLines (n : Nat) : List (List Char) → Host.Outcome (List Word) Fault Refusal
  | [] => .next []
  | l :: ls =>
    if l = [] then parseLines (n + 1) ls
    else
      match binaryValue 0 l with
      | none => .fault (.loadError n)
      | some v =>
        if 32 < l.length then .fault (.loadError n)
        else if l.length < 32 then .refused (.shortProgramLine n)
        else
          match parseLines (n + 1) ls with
          | .next ws => .next (BitVec.ofNat 32 v :: ws)
          | .fault f => .fault f
          | .refused r => .refused r

/-- The 32 binary digits of a word, most significant first (`30_encoding.md` R108). -/
def binaryOf (w : Word) : List Char := (List.range 32).map (fun k => if w.getLsbD (31 - k) then '1' else '0')

/-- The program source of a list of lines, each a word or blank (`none`), each with its newline (`30_encoding.md`
R108). -/
def sourceOf : List (Option Word) → List Char
  | [] => []
  | none :: ls => '\n' :: sourceOf ls
  | some w :: ls => binaryOf w ++ '\n' :: sourceOf ls

/-- A line that is no word: it has a character other than `0` and `1`, a space or a carriage return included, or more
than 32 characters (`30_encoding.md` R108; entry 10). -/
def Malformed (l : List Char) : Prop := (∃ c ∈ l, c ≠ '0' ∧ c ≠ '1') ∨ 32 < l.length

/-- A line of binary digits that is not blank and has fewer than 32 of them (`93_implementation_defined.md` U14). -/
def TooShort (l : List Char) : Prop := l ≠ [] ∧ (∀ c ∈ l, c = '0' ∨ c = '1') ∧ l.length < 32

/-- A program source loaded; lines are numbered from 1 (entry 10). -/
def loadSource (text : List Char) (s : State) : Host.Outcome State Fault Refusal :=
  match parseLines 1 (sourceLines text) with
  | .next ws => loadImage ws s
  | .fault f => .fault f
  | .refused r => .refused r

/-! ## Presets (`70_reset_and_hazards.md` R266, decision D21) -/

/-- A register; `x[0]` must not be set. -/
def presetReg (i : Reg) (v : Word) (s : State) : Host.Outcome State Fault Refusal :=
  if i = 0 then .refused .presetZeroRegister else .next (s.writeReg i v)

/-- The program counter: any value, and the first fetch faults on a bad one. -/
def presetPc (v : Word) (s : State) : Host.Outcome State Fault Refusal := .next { s with pc := v }

/-- A byte of data memory; it is not marked touched. -/
def presetByte (a : Nat) (b : Byte) (s : State) : Host.Outcome State Fault Refusal :=
  if a < s.params.dmemSize then .next { s with dmem := s.dmem.write a b }
  else .refused (.presetOutsideDataMemory a)

/-- The parameters a machine is built with. -/
def presetParams (p : Params) (s : State) : State := { s with params := p }

/-! ## The run report (`60_exceptions.md` R252) -/

/-- What the printers read. -/
structure Report where
  cycles : Nat
  pc : Word
  /-- `x[0]` .. `x[31]` as signed numbers. -/
  registers : List Int
  /-- The touched bytes, as offset and value. -/
  memory : List (Nat × Byte)
deriving DecidableEq, Repr

/-- The report of a state. -/
def report (s : State) : Report :=
  { cycles := s.clock
    pc := s.pc
    registers := s.x.toList.map BitVec.toInt
    memory := s.touched.map (fun a => (a, s.dmem.read a)) }

end Sys2Proof.Machine
end

