-- ==== Sys2Proof/Safety.lean ====
section
/-! DEFINITION. What claims are stated in: which registers an instruction names, what a retiring cycle leaves and what
it keeps, the invariant of the machine, runs, and what counts as a good end. -/

namespace Sys2Proof

/-! ## The registers and the successor of an instruction -/

/-- The registers an instruction reads (`10_state.md` R24). -/
def Instr.sources : Instr → List Reg
  | .add _ rs1 rs2 => [rs1, rs2]
  | .sub _ rs1 rs2 => [rs1, rs2]
  | .sll _ rs1 rs2 => [rs1, rs2]
  | .xor _ rs1 rs2 => [rs1, rs2]
  | .srl _ rs1 rs2 => [rs1, rs2]
  | .or _ rs1 rs2 => [rs1, rs2]
  | .and _ rs1 rs2 => [rs1, rs2]
  | .mul _ rs1 rs2 => [rs1, rs2]
  | .div _ rs1 rs2 => [rs1, rs2]
  | .rem _ rs1 rs2 => [rs1, rs2]
  | .addi _ rs1 _ => [rs1]
  | .slli _ rs1 _ => [rs1]
  | .xori _ rs1 _ => [rs1]
  | .srli _ rs1 _ => [rs1]
  | .ori _ rs1 _ => [rs1]
  | .andi _ rs1 _ => [rs1]
  | .lw _ rs1 _ _ => [rs1]
  | .sw rs2 rs1 _ _ => [rs1, rs2]
  | .beq rs1 rs2 _ => [rs1, rs2]
  | .bne rs1 rs2 _ => [rs1, rs2]
  | .blt rs1 rs2 _ => [rs1, rs2]
  | .bge rs1 rs2 _ => [rs1, rs2]
  | .bltu rs1 rs2 _ => [rs1, rs2]
  | .bgeu rs1 rs2 _ => [rs1, rs2]
  | .jal _ _ => []
  | .jalr _ rs1 _ _ => [rs1]
  | .lui _ _ => []
  | .auipc _ _ => []

/-- The register an instruction writes (`10_state.md` R24). -/
def Instr.destination : Instr → Option Reg
  | .add rd _ _ => some rd
  | .sub rd _ _ => some rd
  | .sll rd _ _ => some rd
  | .xor rd _ _ => some rd
  | .srl rd _ _ => some rd
  | .or rd _ _ => some rd
  | .and rd _ _ => some rd
  | .mul rd _ _ => some rd
  | .div rd _ _ => some rd
  | .rem rd _ _ => some rd
  | .addi rd _ _ => some rd
  | .slli rd _ _ => some rd
  | .xori rd _ _ => some rd
  | .srli rd _ _ => some rd
  | .ori rd _ _ => some rd
  | .andi rd _ _ => some rd
  | .lw rd _ _ _ => some rd
  | .sw _ _ _ _ => none
  | .beq _ _ _ => none
  | .bne _ _ _ => none
  | .blt _ _ _ => none
  | .bge _ _ _ => none
  | .bltu _ _ _ => none
  | .bgeu _ _ _ => none
  | .jal rd _ => some rd
  | .jalr rd _ _ _ => some rd
  | .lui rd _ => some rd
  | .auipc rd _ => some rd

/-- The same instruction with another destination; one without a destination stays. -/
def Instr.withDestination (i : Instr) (r : Reg) : Instr :=
  match i with
  | .add _ rs1 rs2 => .add r rs1 rs2
  | .sub _ rs1 rs2 => .sub r rs1 rs2
  | .sll _ rs1 rs2 => .sll r rs1 rs2
  | .xor _ rs1 rs2 => .xor r rs1 rs2
  | .srl _ rs1 rs2 => .srl r rs1 rs2
  | .or _ rs1 rs2 => .or r rs1 rs2
  | .and _ rs1 rs2 => .and r rs1 rs2
  | .mul _ rs1 rs2 => .mul r rs1 rs2
  | .div _ rs1 rs2 => .div r rs1 rs2
  | .rem _ rs1 rs2 => .rem r rs1 rs2
  | .addi _ rs1 imm => .addi r rs1 imm
  | .slli _ rs1 imm => .slli r rs1 imm
  | .xori _ rs1 imm => .xori r rs1 imm
  | .srli _ rs1 imm => .srli r rs1 imm
  | .ori _ rs1 imm => .ori r rs1 imm
  | .andi _ rs1 imm => .andi r rs1 imm
  | .lw _ rs1 imm f3 => .lw r rs1 imm f3
  | .sw rs2 rs1 imm f3 => .sw rs2 rs1 imm f3
  | .beq rs1 rs2 off => .beq rs1 rs2 off
  | .bne rs1 rs2 off => .bne rs1 rs2 off
  | .blt rs1 rs2 off => .blt rs1 rs2 off
  | .bge rs1 rs2 off => .bge rs1 rs2 off
  | .bltu rs1 rs2 off => .bltu rs1 rs2 off
  | .bgeu rs1 rs2 off => .bgeu rs1 rs2 off
  | .jal _ off => .jal r off
  | .jalr _ rs1 imm f3 => .jalr r rs1 imm f3
  | .lui _ imm => .lui r imm
  | .auipc _ imm => .auipc r imm

/-- LW and SW, the two instructions whose cycle has a memory stage (`20_memory.md` R56). -/
def Instr.accessesData : Instr → Bool
  | .lw _ _ _ _ => true
  | .sw _ _ _ _ => true
  | _ => false

namespace Machine

/-- The table of `10_state.md` R26: where each instruction goes. -/
def nextPcOf (i : Instr) (s : State) : Word :=
  let x := s.readReg
  match i with
  | .beq rs1 rs2 off => if x rs1 = x rs2 then s.pc + off.signExtend 32 else s.pc + 4
  | .bne rs1 rs2 off => if x rs1 ≠ x rs2 then s.pc + off.signExtend 32 else s.pc + 4
  | .blt rs1 rs2 off => if (x rs1).toInt < (x rs2).toInt then s.pc + off.signExtend 32 else s.pc + 4
  | .bge rs1 rs2 off => if (x rs1).toInt ≥ (x rs2).toInt then s.pc + off.signExtend 32 else s.pc + 4
  | .bltu rs1 rs2 off => if (x rs1).toNat < (x rs2).toNat then s.pc + off.signExtend 32 else s.pc + 4
  | .bgeu rs1 rs2 off => if (x rs1).toNat ≥ (x rs2).toNat then s.pc + off.signExtend 32 else s.pc + 4
  | .jal _ off => s.pc + off.signExtend 32
  | .jalr _ rs1 imm _ => x rs1 + imm.signExtend 32
  | _ => s.pc + 4

/-! ## What a cycle leaves and keeps -/

/-- The cycle retired and goes on at `target`; the run state, the parameters and every byte of instruction memory are
as before. -/
structure Retires (s t : State) (target : Word) : Prop where
  pc : t.pc = target
  clock : t.clock = s.clock + 1
  run : t.run = s.run
  params : t.params = s.params
  imem : ∀ a : Nat, t.imem.read a = s.imem.read a

/-- Every byte of data memory and every bit of the touched map is as before. -/
structure KeepsData (s t : State) : Prop where
  bytes : ∀ a : Nat, t.dmem.read a = s.dmem.read a
  touched : ∀ a : Nat, a ∈ t.touched ↔ a ∈ s.touched

/-- Every register is as before. -/
def KeepsRegisters (s t : State) : Prop := ∀ r : Reg, t.readReg r = s.readReg r

/-- `rd` holds `v` unless it is register 0, and every other register is as before. -/
def WritesRegister (s t : State) (rd : Reg) (v : Word) : Prop :=
  ∀ r : Reg, t.readReg r = if r = rd ∧ r ≠ 0 then v else s.readReg r

/-- The whole effect of an instruction whose one result is `v` in `rd`. -/
structure ResultIs (s t : State) (rd : Reg) (v target : Word) : Prop where
  retires : Retires s t target
  registers : WritesRegister s t rd v
  data : KeepsData s t

/-- The whole effect of an instruction that only goes on at `target`. -/
structure OnlyGoesTo (s t : State) (target : Word) : Prop where
  retires : Retires s t target
  registers : KeepsRegisters s t
  data : KeepsData s t

/-- The answer of a cycle that raised `f`: the run is Aborted and nothing else changed (`60_exceptions.md` R240). -/
def abortOf (f : Fault) (s : State) : Host.Outcome State Fault Refusal := .next { s with run := .aborted f }

/-! ## The invariant -/

/-- The invariant of every state a legal launch reaches (`10_state.md` R42): the zero register, and both memories and
the touched map in canonical form and inside their capacity. A `pc` that is not a multiple of 4 is allowed (R27). -/
structure State.Inv (s : State) : Prop where
  zeroRegister : s.readReg 0 = 0
  imemCanonical : s.imem.wf = true
  imemInside : ∀ c ∈ s.imem, c.1 < Config.imemSize
  dmemCanonical : s.dmem.wf = true
  dmemInside : ∀ c ∈ s.dmem, c.1 < s.params.dmemSize
  touchedRising : List.Pairwise (fun a b : Nat => a < b) s.touched
  touchedInside : ∀ a ∈ s.touched, a < s.params.dmemSize

/-- Every byte of data memory that is not 0 is marked touched: it holds where the host preset no data memory
(`10_state.md` R36, R41). -/
def State.WrittenIsTouched (s : State) : Prop :=
  ∀ a : Nat, s.dmem.read a ≠ Memory.unlisted → a ∈ s.touched

/-! ## Runs and their ends -/

/-- `t` is reached from `s` by whole steps (`40_execute_cycle.md` R140). -/
inductive Reaches (s : State) : State → Prop where
  | refl : Reaches s s
  | step {t u : State} : Reaches s t → Machine.step t = .next u → Reaches s u

/-- The run is over: Halted or Aborted (`40_execute_cycle.md` R140). -/
def State.Ended (s : State) : Prop := s.run ≠ .running

/-- The one good end: the sentinel was seen (`60_exceptions.md` R241). -/
def State.Completed (s : State) : Prop := s.run = .halted

/-- No fault has ended the run: what "safe" means on this core. -/
def State.NotAborted (s : State) : Prop := ∀ f : Fault, s.run ≠ .aborted f

/-- A running core that does not halt at the top of this cycle, so that it fetches (`40_execute_cycle.md` R120). -/
structure State.Fetches (s : State) : Prop where
  running : s.run = .running
  noSentinel : s.readReg 31 ≠ 0xDEADBEEF#32

/-- The fetch succeeds and reads `w`: `pc` is aligned, inside instruction memory, and the four bytes there are `w`,
lowest address first (`20_memory.md` R51, R54). -/
structure State.FetchesWord (s : State) (w : Word) : Prop where
  fetches : s.Fetches
  aligned : s.pc.toNat % 4 = 0
  inside : s.pc.toNat + 3 < Config.imemSize
  byte0 : s.imem.read s.pc.toNat = w.extractLsb' 0 8
  byte1 : s.imem.read (s.pc.toNat + 1) = w.extractLsb' 8 8
  byte2 : s.imem.read (s.pc.toNat + 2) = w.extractLsb' 16 8
  byte3 : s.imem.read (s.pc.toNat + 3) = w.extractLsb' 24 8

end Machine

end Sys2Proof
end

