-- ==== Sys2Proof/Certificates/Slice0/Obligations.lean ====
section
/-! DEFINITION. The statements for the provers. Each says in its docstring which sentence of the spec it formalises, and
where it rests on one of the spec's own decisions (D1 to D24) or on an entry of the model's log. -/

open Sys2Proof Sys2Proof.Machine

/-! ## Reset and launch -/

/-- `10_state.md` R41. The zeros of both memories and the empty touched map are the spec's decision D14 (entry 2), the
default parameters its D5, D6, D10, D12 (entry 4), and that no program is placed is entry 9. -/
def Obligations.ResetLeavesEverythingZero : Prop :=
  State.reset.run = .running ∧ State.reset.pc = 0 ∧ State.reset.clock = 0 ∧
  (∀ r : Reg, State.reset.readReg r = 0) ∧
  (∀ a : Nat, State.reset.imem.read a = 0) ∧ (∀ a : Nat, State.reset.dmem.read a = 0) ∧
  (∀ a : Nat, a ∉ State.reset.touched) ∧
  State.reset.params = { dmemSize := 32768, shamt := .low5, divCorner := .riscv, strictFunct3 := false }

/-- The invariant holds after reset (`10_state.md` R41, R42). Its clauses that the memories and the touched map are
canonical lists are the model's choice (entry 19), and the zeros and the empty map are the spec's decision D14 (entry
2). -/
def Obligations.ResetMeetsTheInvariant : Prop := State.reset.Inv ∧ State.reset.WrittenIsTouched

/-- `70_reset_and_hazards.md` R264: word `k` of an image is what the fetch at `4k` reads, and every address the image
does not cover reads as the zero word (decision D14). The limit of 8192 words is decision D24 (entry 10). -/
def Obligations.LoadedProgramIsFetched : Prop :=
  ∀ (ws : List Word) (s : State), ws.length ≤ 8192 →
    ∃ m : Memory, loadImage ws s = .next { s with imem := m } ∧
      (∀ (k : Nat) (h : k < ws.length),
        State.ifetch { s with imem := m, pc := BitVec.ofNat 32 (4 * k) } = .ok ws[k]) ∧
      (∀ k : Nat, ws.length ≤ k → k < 8192 →
        State.ifetch { s with imem := m, pc := BitVec.ofNat 32 (4 * k) } = .ok 0)

/-- `30_encoding.md` R108, `70_reset_and_hazards.md` R264: the text of a list of lines, words and blank lines, loads as
its words, blank lines being skipped; after any such lines a malformed line is `LoadError` of its number and a short one
is refused with its number, whatever follows it. That a short line is refused is the spec's U14. The model's choices
(entry 10): lines are numbered from 1 and blank ones counted; an empty line is the blank one, and a space or a carriage
return makes a line malformed; the newline after the last line may be missing; of two bad lines the first is reported. -/
def Obligations.ProgramSourceLoads : Prop :=
  (∀ (ls : List (Option Word)) (s : State), loadSource (sourceOf ls) s = loadImage (ls.filterMap id) s) ∧
  (∀ (ls : List (Option Word)) (w : Word) (s : State),
    loadSource (sourceOf ls ++ binaryOf w) s = loadImage (ls.filterMap id ++ [w]) s) ∧
  (∀ (ls : List (Option Word)) (l rest : List Char) (s : State), '\n' ∉ l → Malformed l →
    loadSource (sourceOf ls ++ l ++ '\n' :: rest) s = .fault (.loadError (ls.length + 1)) ∧
    loadSource (sourceOf ls ++ l) s = .fault (.loadError (ls.length + 1))) ∧
  (∀ (ls : List (Option Word)) (l rest : List Char) (s : State), TooShort l →
    loadSource (sourceOf ls ++ l ++ '\n' :: rest) s = .refused (.shortProgramLine (ls.length + 1)) ∧
    loadSource (sourceOf ls ++ l) s = .refused (.shortProgramLine (ls.length + 1)))

/-- `70_reset_and_hazards.md` R264 and R266: what the host may do before a run keeps the invariant, and a preset of
`x[0]` is refused (`93_implementation_defined.md` U11). The parameters may be any (entries 4, 20), chosen before any data
is placed; in particular the reset state under any parameters meets the invariant. The model's choices: the canonical
form of the memories and the touched map in the invariant (entry 19), and that a preset of a data byte outside data
memory is refused (entry 11). -/
def Obligations.LaunchKeepsTheInvariant : Prop :=
  (∀ p : Params, (presetParams p State.reset).Inv) ∧
  (∀ (p : Params) (s : State), s.Inv → s.dmem = [] → s.touched = [] → (presetParams p s).Inv) ∧
  ∀ s : State, s.Inv →
    (∀ (ws : List Word) (t : State), loadImage ws s = .next t → t.Inv) ∧
    (∀ (text : List Char) (t : State), loadSource text s = .next t → t.Inv) ∧
    (∀ (r : Reg) (v : Word) (t : State), presetReg r v s = .next t → t.Inv) ∧
    (∀ (v : Word) (t : State), presetPc v s = .next t → t.Inv) ∧
    (∀ (a : Nat) (b : Byte) (t : State), presetByte a b s = .next t → t.Inv) ∧
    (∀ (a : Nat) (b : Byte), s.params.dmemSize ≤ a → presetByte a b s = .refused (.presetOutsideDataMemory a)) ∧
    (∀ v : Word, presetReg 0 v s = .refused .presetZeroRegister)

/-! ## Encoding -/

/-- Words of the worked vectors of `95_test_vectors.md` sections 3 and 7, one for each format and one for each kind of
illegal word. The numeric encodings are the spec's decisions D1 to D4 (entry 1). -/
def Obligations.SampleWordsDecode : Prop :=
  decode 0x002081B3#32 = .ok (.add 3 1 2) ∧
  decode 0xEEFF8F93#32 = .ok (.addi 31 31 0xEEF#12) ∧
  decode 0x06402283#32 = .ok (.lw 5 0 100#12 2#3) ∧
  decode 0xFE732C23#32 = .ok (.sw 7 6 0xFF8#12 2#3) ∧
  decode 0xFE209EE3#32 = .ok (.bne 1 2 0x1FFC#13) ∧
  decode 0xFFDFF06F#32 = .ok (.jal 0 0x1FFFFC#21) ∧
  decode 0xFF8280E7#32 = .ok (.jalr 1 5 0xFF8#12 0#3) ∧
  decode 0x123452B7#32 = .ok (.lui 5 0x12345#20) ∧
  decode 0x00000000#32 = .error .illegalOpcode ∧
  decode 0x407352B3#32 = .error (.illegalAluOp 0x105#10) ∧
  decode 0x00032293#32 = .error (.illegalAluOp 0x002#10) ∧
  decode 0x0020A463#32 = .error (.illegalBranchCond 2#3)

/-- `30_encoding.md` R110: from the word an encoder builds, every field and the immediate of its format come back. -/
def Obligations.FieldsRoundTrip : Prop :=
  (∀ (f7 : BitVec 7) (rs2 rs1 : Reg) (f3 : BitVec 3) (rd : Reg) (op : BitVec 7),
    let w := encR f7 rs2 rs1 f3 rd op
    funct7Of w = f7 ∧ rs2Of w = rs2 ∧ rs1Of w = rs1 ∧ funct3Of w = f3 ∧ rdOf w = rd ∧ opcodeOf w = op) ∧
  (∀ (i : BitVec 12) (rs1 : Reg) (f3 : BitVec 3) (rd : Reg) (op : BitVec 7),
    let w := encI i rs1 f3 rd op
    immI w = i.signExtend 32 ∧ rs1Of w = rs1 ∧ funct3Of w = f3 ∧ rdOf w = rd ∧ opcodeOf w = op) ∧
  (∀ (i : BitVec 12) (rs2 rs1 : Reg) (f3 : BitVec 3) (op : BitVec 7),
    let w := encS i rs2 rs1 f3 op
    immS w = i.signExtend 32 ∧ rs2Of w = rs2 ∧ rs1Of w = rs1 ∧ funct3Of w = f3 ∧ opcodeOf w = op) ∧
  (∀ (i : BitVec 13) (rs2 rs1 : Reg) (f3 : BitVec 3) (op : BitVec 7),
    let w := encB i rs2 rs1 f3 op
    immB w = (i.extractLsb' 1 12 ++ 0#1).signExtend 32 ∧
      rs2Of w = rs2 ∧ rs1Of w = rs1 ∧ funct3Of w = f3 ∧ opcodeOf w = op) ∧
  (∀ (i : BitVec 20) (rd : Reg) (op : BitVec 7),
    let w := encU i rd op
    immU w = i ++ 0#12 ∧ rdOf w = rd ∧ opcodeOf w = op) ∧
  (∀ (i : BitVec 21) (rd : Reg) (op : BitVec 7),
    let w := encJ i rd op
    immJ w = (i.extractLsb' 1 20 ++ 0#1).signExtend 32 ∧ rdOf w = rd ∧ opcodeOf w = op)

/-- `30_encoding.md` section 10: encoding an instruction and decoding the word gives the instruction back, with
every register, every immediate, every even offset and every unexamined funct3. -/
def Obligations.DecodeOfEncode : Prop :=
  ∀ i : Instr, i.wellFormed = true → decode (encode i) = .ok i

/-- The other direction: a word that decodes is the word of its instruction, so that no bit of a word is dropped
(`30_encoding.md` section 10). -/
def Obligations.EncodeOfDecode : Prop :=
  ∀ (w : Word) (i : Instr), decode w = .ok i → i.wellFormed = true ∧ encode i = w

/-- `30_encoding.md` R95: a word is the instruction of a row if and only if `(w AND mask) = match`, and the rows are
disjoint. The rows' numbers are the spec's decisions D1, D2, D4 (entry 1). -/
def Obligations.TableRowsDecideTheInstruction : Prop :=
  (∀ (w : Word) (i : Instr), decode w = .ok i → w &&& rowMask i = rowMatch i) ∧
  (∀ (w : Word) (i : Instr), w &&& rowMask i = rowMatch i →
    ∃ j : Instr, decode w = .ok j ∧ rowMask j = rowMask i ∧ rowMatch j = rowMatch i)

/-- `30_encoding.md` R100 to R102: an opcode outside the nine, a function code outside the ten, and a branch funct3 of
010 or 011 each abort the run with their fault. The numbers are the spec's decisions D1, D3, D4 (entry 1), the aborted
state is its D16 (entry 3). -/
def Obligations.IllegalWordsAbort : Prop :=
  ∀ (s : State) (w : Word), s.FetchesWord w →
    (opcodeOf w ∉ [0x33#7, 0x13#7, 0x03#7, 0x67#7, 0x23#7, 0x63#7, 0x6F#7, 0x37#7, 0x17#7] →
      step s = abortOf (.illegalOpcode s.pc w) s) ∧
    (opcodeOf w = 0x33#7 →
      functOp w ∉ [0x000#10, 0x100#10, 0x001#10, 0x004#10, 0x005#10, 0x006#10, 0x007#10, 0x008#10, 0x00C#10, 0x00E#10] →
      step s = abortOf (.illegalAluOp s.pc (functOp w)) s) ∧
    (opcodeOf w = 0x13#7 → funct3Of w = 2#3 → step s = abortOf (.illegalAluOp s.pc 0x002#10) s) ∧
    (opcodeOf w = 0x13#7 → funct3Of w = 3#3 → step s = abortOf (.illegalAluOp s.pc 0x003#10) s) ∧
    (opcodeOf w = 0x63#7 → funct3Of w = 2#3 ∨ funct3Of w = 3#3 →
      step s = abortOf (.illegalBranchCond s.pc (funct3Of w)) s)

/-! ## The step -/

/-- `40_execute_cycle.md` R120, R139: where the four bytes at `pc` decode to `i`, the step is `exec i` at that very
state, with nothing around it: `exec` itself moves `pc` and counts `clock`. -/
def Obligations.StepRunsTheDecodedInstruction : Prop :=
  ∀ (s : State) (w : Word) (i : Instr), s.FetchesWord w → decode w = .ok i → step s = exec i s

/-- `40_execute_cycle.md` R137: the check at the top of a cycle comes before the fetch and before every fault, and
changes `run` alone. All 32 bits and the precedence are the spec's decision D23 (entry 16). -/
def Obligations.SentinelHaltsBeforeTheFetch : Prop :=
  ∀ s : State, s.run = .running → s.readReg 31 = 0xDEADBEEF#32 → step s = .next { s with run := .halted }

/-- `10_state.md` R33: Halted and Aborted are terminal. Aborted is the spec's decision D16, and that a step of an ended
state answers that same state is the model's choice (entry 3). -/
def Obligations.EndedRunsNeverChange : Prop :=
  ∀ s t : State, s.Ended → Reaches s t → t = s

/-- `10_state.md` R33, from Running: the run becomes Halted exactly when the sentinel stands at the top of the cycle,
and Aborted with a fault exactly when there is none and the fetch or a later stage of the datapath raises that fault.
Aborted is the spec's decision D16 (entry 3). -/
def Obligations.RunTransitions : Prop :=
  ∀ s t : State, s.run = .running → step s = .next t →
    (t.run = .halted ↔ s.readReg 31 = 0xDEADBEEF#32) ∧
    (∀ f : Fault, t.run = .aborted f ↔
      s.readReg 31 ≠ 0xDEADBEEF#32 ∧
      (s.ifetch = .error f ∨ ∃ w : Word, s.ifetch = .ok w ∧ datapath w s = .error (.fault f)))

/-- `20_memory.md` R54, R59: a fetch that is not aligned, and one that is aligned and outside instruction memory. The
bounds fault and its order are the spec's decision D13 (entry 8), the aborted state its D16 (entry 3). -/
def Obligations.BadFetchAborts : Prop :=
  ∀ s : State, s.Fetches →
    (s.pc.toNat % 4 ≠ 0 → step s = abortOf (.fetchMisaligned s.pc) s) ∧
    (s.pc.toNat % 4 = 0 → 32768 ≤ s.pc.toNat → step s = abortOf (.fetchOutOfRange s.pc) s)

/-- `40_execute_cycle.md` R138 (a): a cycle that faults changes no persistent state but `run` (D16, entry 3). -/
def Obligations.FaultingCycleChangesOnlyTheRun : Prop :=
  ∀ (s t : State) (f : Fault), s.run = .running → step s = .next t → t.run = .aborted f →
    t = { s with run := .aborted f }

/-- `40_execute_cycle.md` R136: `clock` rises by one in a cycle that raised no fault, and stays in one that did or in
which the sentinel was found. -/
def Obligations.ClockCountsRetiredCycles : Prop :=
  ∀ s t : State, s.run = .running → step s = .next t →
    (t.run = .running → t.clock = s.clock + 1) ∧ (t.run ≠ .running → t.clock = s.clock)

/-- With the spec's default parameters no step is refused or stops (`10_state.md` R43; the defaults are the spec's
decisions D6, D10, entries 6, 7). That the answer is always a next state is the model's choice (entry 3): a cycle that
faults answers the state with `run` Aborted, and an ended state answers itself. -/
def Obligations.DefaultStepsAlwaysAnswer : Prop :=
  ∀ s : State, s.params.divCorner = .riscv → s.params.strictFunct3 = false → ∃ t : State, step s = .next t

/-- The two designs agree: the instruction-by-instruction step (files 41 to 46) and the datapath with its decoded
bundle, control-signal table, shared ALU, branch unit, memory stage, write-back and PC sequencer (`30_encoding.md` R97
to R99, `40_execute_cycle.md` R120 to R139), in every state and under all parameters. The model's choices in both: an
ended state steps to itself and a fault is a next state (entry 3), a refused funct3 is refused before the address is
checked (entry 7), and the bundles stand beside `step` and not in State (entry 21). -/
def Obligations.StepIsTheDatapath : Prop := ∀ s : State, step s = datapathStep s

/-! ## Invariants and whole-machine rules -/

/-- Every step keeps the invariant (`10_state.md` R42; the capacities are `20_memory.md` R50). Its clauses that the
memories and the touched map are canonical lists are the model's choice (entry 19). -/
def Obligations.StepKeepsTheInvariant : Prop := ∀ s t : State, s.Inv → step s = .next t → t.Inv

/-- Every step keeps "a byte that is not 0 was written by a store" (`10_state.md` R36, `20_memory.md` R60). -/
def Obligations.StepKeepsWrittenIsTouched : Prop :=
  ∀ s t : State, s.WrittenIsTouched → step s = .next t → t.WrittenIsTouched

/-- `10_state.md` R22: register 0 is 0 at reset and in every state reached from one where it is 0, whatever `rd` an
instruction has, and a write to index 0 does nothing. -/
def Obligations.RegisterZeroAlwaysReadsZero : Prop :=
  State.reset.readReg 0 = 0 ∧
  (∀ (s : State) (v : Word), s.writeReg 0 v = s) ∧
  (∀ s t : State, Reaches s t → t.readReg 0 = s.readReg 0) ∧
  (∀ t : State, Reaches State.reset t → t.readReg 0 = 0)

/-- `10_state.md` R24: only `x[rd]` is written, and an instruction without `rd` writes none. -/
def Obligations.OnlyTheDestinationIsWritten : Prop :=
  ∀ (i : Instr) (s t : State), exec i s = .next t →
    ∀ r : Reg, (i.destination ≠ some r ∨ r = 0) → t.readReg r = s.readReg r

/-- `10_state.md` R24: what an instruction does depends on no register but those it reads: two states that differ only
in other registers go on alike, and write the same value. -/
def Obligations.OnlyTheSourcesAreRead : Prop :=
  ∀ (i : Instr) (s t : State) (y : Vector Word 32), s.run = .running →
    (∀ r ∈ i.sources, State.readReg { s with x := y } r = s.readReg r) → exec i s = .next t →
    ∃ u : State, exec i { s with x := y } = .next u ∧ { u with x := t.x } = t ∧
      ∀ rd : Reg, i.destination = some rd → rd ≠ 0 → t.run = .running → u.readReg rd = t.readReg rd

/-- `10_state.md` R26: where each instruction goes when its cycle retires. -/
def Obligations.NextPcTable : Prop :=
  ∀ (i : Instr) (s t : State), s.run = .running → exec i s = .next t → t.run = .running → t.pc = nextPcOf i s

/-- `10_state.md` R36: a step marks exactly the bytes a retiring store covers, unmarks none, and nothing but the map
itself depends on the map. -/
def Obligations.TouchedIsForReportingOnly : Prop :=
  (∀ s t : State, step s = .next t → ∀ a : Nat, a ∈ s.touched → a ∈ t.touched) ∧
  (∀ (s t : State) (w : Word) (rs2 rs1 : Reg) (imm : BitVec 12) (f3 : BitVec 3), s.FetchesWord w →
    decode w = .ok (.sw rs2 rs1 imm f3) → step s = .next t → t.run = .running →
    ∀ a : Nat, a ∈ t.touched ↔
      ((s.basePlus rs1 imm).toNat ≤ a ∧ a < (s.basePlus rs1 imm).toNat + 4) ∨ a ∈ s.touched) ∧
  (∀ (s t : State) (u : List Nat), step s = .next t →
    ∃ v : List Nat, step { s with touched := u } = .next { t with touched := v }) ∧
  (∀ (s : State) (u : List Nat) (r : Refusal), step s = .refused r → step { s with touched := u } = .refused r)

/-- `10_state.md` R32: "No instruction can read or write `clock`": a step does the same whatever the clock holds, and
adds as much to it. -/
def Obligations.NothingDependsOnTheClock : Prop :=
  (∀ (s t : State) (c : Nat), step s = .next t →
    step { s with clock := c } = .next { t with clock := c + (t.clock - s.clock) }) ∧
  (∀ (s : State) (c : Nat) (r : Refusal), step s = .refused r → step { s with clock := c } = .refused r)

/-- `20_memory.md` R66: no run changes what a fetch at any address returns. -/
def Obligations.StoresNeverReachInstructionMemory : Prop :=
  ∀ s t : State, Reaches s t →
    (∀ a : Nat, t.imem.read a = s.imem.read a) ∧
    (∀ p : Word, State.ifetch { t with pc := p } = State.ifetch { s with pc := p })

/-- `20_memory.md` R56: the memory stage runs for LW and SW, whose cycle ends with its fault or goes on with what it
read or wrote, and for nothing else: another instruction neither reads, writes nor checks data memory. A funct3 that
`STRICT_FUNCT3 = true` refuses has a statement of its own, `UnexaminedFunct3`. -/
def Obligations.MemoryStageOnlyForLoadsAndStores : Prop :=
  (∀ (i : Instr) (s t : State), i.accessesData = false → exec i s = .next t →
    t.run = s.run ∧ KeepsData s t ∧
    ∀ (m : Memory) (n : Nat), exec i { s with dmem := m, params := { s.params with dmemSize := n } } =
      .next { t with dmem := m, params := { s.params with dmemSize := n } }) ∧
  (∀ (s : State) (rd rs1 : Reg) (imm : BitVec 12) (f3 : BitVec 3), s.params.strictFunct3 = false ∨ f3 = 2#3 →
    (∀ f : Fault, s.memRead (s.basePlus rs1 imm) = .error f → exec (.lw rd rs1 imm f3) s = abortOf f s) ∧
    (∀ v : Word, s.memRead (s.basePlus rs1 imm) = .ok v →
      ∃ t : State, exec (.lw rd rs1 imm f3) s = .next t ∧ ResultIs s t rd v (s.pc + 4))) ∧
  (∀ (s : State) (rs2 rs1 : Reg) (imm : BitVec 12) (f3 : BitVec 3), s.params.strictFunct3 = false ∨ f3 = 2#3 →
    (∀ f : Fault, s.memWrite (s.basePlus rs1 imm) (s.readReg rs2) = .error f →
      exec (.sw rs2 rs1 imm f3) s = abortOf f s) ∧
    (∀ t : State, s.memWrite (s.basePlus rs1 imm) (s.readReg rs2) = .ok t →
      exec (.sw rs2 rs1 imm f3) s = .next { t with pc := s.pc + 4, clock := s.clock + 1 }))

/-- `30_encoding.md` R104: every word is an instruction or fatal, and an instruction whose `rd` is 0 does all the same
instruction with another `rd` does, but for the register write. -/
def Obligations.RdZeroSuppressesOnlyTheWrite : Prop :=
  (∀ (s : State) (w : Word), s.FetchesWord w →
    (∃ i : Instr, decode w = .ok i ∧ step s = exec i s) ∨ ∃ f : Fault, step s = abortOf f s) ∧
  (∀ (i : Instr) (rd : Reg) (s t : State), i.destination = some rd → exec i s = .next t →
    exec (i.withDestination 0) s = .next { t with x := s.x }) ∧
  (∀ (i : Instr) (rd : Reg) (s : State) (r : Refusal), i.destination = some rd → exec i s = .refused r →
    exec (i.withDestination 0) s = .refused r) ∧
  (decode 0x00000013#32 = .ok (.addi 0 0 0) ∧
    ∀ s : State, ∃ t : State, exec (.addi 0 0 0) s = .next t ∧ OnlyGoesTo s t (s.pc + 4)) ∧
  (∀ s : State, s.readReg 0 = 0 → exec (.lw 0 0 2#12 2#3) s = abortOf (.dataMisaligned 2#32) s)

/-- `40_execute_cycle.md` R132: the write-back stage, for every bundle; the selector is `None` for STORE and BRANCH
alone, whose `D.rd` is 0 anyway; and the memory stage, with its read and its checks, is the same whatever `D.rd` is. -/
def Obligations.WriteBackWritesTheSelectedValue : Prop :=
  (∀ (d : Decoded) (c : Control) (r m l : Word) (s : State),
    (∀ i : Reg, (writeBack d c r m l s).readReg i =
      if i = d.rd ∧ i ≠ 0 then
        (match c.wbSel with
          | .none => s.readReg i
          | .alu => r
          | .mem => m
          | .pcPlus4 => l)
      else s.readReg i) ∧
    { writeBack d c r m l s with x := s.x } = s) ∧
  (∀ (w : Word) (s : State) (d : Decoded) (c : Control), decodeStage w s = .ok (d, c) →
    (c.wbSel = .none ↔ opClass (opcodeOf w) = some .store ∨ opClass (opcodeOf w) = some .branch) ∧
    (c.wbSel = .none → d.rd = 0)) ∧
  (∀ (d : Decoded) (r : Word) (s : State), memoryStage { d with rd := 0 } r s = memoryStage d r s)

/-! ## Results of the instructions, each with its frame. All of these answer a next state, for every operand. -/

/-- ADD, SUB, ADDI (`41_alu_register.md`, `42_alu_immediate.md`). That the sum and difference wrap modulo 2^32 is the
spec's decision D15. -/
def Obligations.AddAndSubtract : Prop :=
  ∀ (s : State) (rd rs1 rs2 : Reg) (imm : BitVec 12),
    (∃ (t : State) (v : Word), exec (.add rd rs1 rs2) s = .next t ∧ ResultIs s t rd v (s.pc + 4) ∧
      (v.toNat : Int) = ((s.readReg rs1).toNat + (s.readReg rs2).toNat : Int) % 2 ^ 32) ∧
    (∃ (t : State) (v : Word), exec (.sub rd rs1 rs2) s = .next t ∧ ResultIs s t rd v (s.pc + 4) ∧
      (v.toNat : Int) = ((s.readReg rs1).toNat - (s.readReg rs2).toNat : Int) % 2 ^ 32) ∧
    (∃ (t : State) (v : Word), exec (.addi rd rs1 imm) s = .next t ∧ ResultIs s t rd v (s.pc + 4) ∧
      (v.toNat : Int) = ((s.readReg rs1).toNat + imm.toInt : Int) % 2 ^ 32)

/-- XOR, OR, AND, bit by bit (`41_alu_register.md` R153 to R155). -/
def Obligations.LogicRegister : Prop :=
  ∀ (s : State) (rd rs1 rs2 : Reg),
    (∃ (t : State) (v : Word), exec (.xor rd rs1 rs2) s = .next t ∧ ResultIs s t rd v (s.pc + 4) ∧
      ∀ k : Nat, v.getLsbD k = ((s.readReg rs1).getLsbD k != (s.readReg rs2).getLsbD k)) ∧
    (∃ (t : State) (v : Word), exec (.or rd rs1 rs2) s = .next t ∧ ResultIs s t rd v (s.pc + 4) ∧
      ∀ k : Nat, v.getLsbD k = ((s.readReg rs1).getLsbD k || (s.readReg rs2).getLsbD k)) ∧
    (∃ (t : State) (v : Word), exec (.and rd rs1 rs2) s = .next t ∧ ResultIs s t rd v (s.pc + 4) ∧
      ∀ k : Nat, v.getLsbD k = ((s.readReg rs1).getLsbD k && (s.readReg rs2).getLsbD k))

/-- XORI, ORI, ANDI, bit by bit: bit `k` of the immediate is its bit 11 from there up (`42_alu_immediate.md` R170, R172
to R174). -/
def Obligations.LogicImmediate : Prop :=
  ∀ (s : State) (rd rs1 : Reg) (imm : BitVec 12),
    (∃ (t : State) (v : Word), exec (.xori rd rs1 imm) s = .next t ∧ ResultIs s t rd v (s.pc + 4) ∧
      ∀ k : Nat, k < 32 → v.getLsbD k = ((s.readReg rs1).getLsbD k != imm.getLsbD (min k 11))) ∧
    (∃ (t : State) (v : Word), exec (.ori rd rs1 imm) s = .next t ∧ ResultIs s t rd v (s.pc + 4) ∧
      ∀ k : Nat, k < 32 → v.getLsbD k = ((s.readReg rs1).getLsbD k || imm.getLsbD (min k 11))) ∧
    (∃ (t : State) (v : Word), exec (.andi rd rs1 imm) s = .next t ∧ ResultIs s t rd v (s.pc + 4) ∧
      ∀ k : Nat, k < 32 → v.getLsbD k = ((s.readReg rs1).getLsbD k && imm.getLsbD (min k 11)))

/-- SLL, SRL, SLLI, SRLI under the default `SHAMT_RULE = low5` (`41_alu_register.md` R156, R157, `42_alu_immediate.md`
R175, R176). That the amount is bits 4:0 of operand B is the spec's decision D5 (entry 5). -/
def Obligations.ShiftsByLowFiveBits : Prop :=
  ∀ (s : State) (rd rs1 rs2 : Reg) (imm : BitVec 12), s.params.shamt = .low5 →
    (∃ (t : State) (v : Word), exec (.sll rd rs1 rs2) s = .next t ∧ ResultIs s t rd v (s.pc + 4) ∧
      v.toNat = (s.readReg rs1).toNat * 2 ^ ((s.readReg rs2).toNat % 32) % 2 ^ 32) ∧
    (∃ (t : State) (v : Word), exec (.srl rd rs1 rs2) s = .next t ∧ ResultIs s t rd v (s.pc + 4) ∧
      v.toNat = (s.readReg rs1).toNat / 2 ^ ((s.readReg rs2).toNat % 32)) ∧
    (∃ (t : State) (v : Word), exec (.slli rd rs1 imm) s = .next t ∧ ResultIs s t rd v (s.pc + 4) ∧
      v.toNat = (s.readReg rs1).toNat * 2 ^ (imm.toNat % 32) % 2 ^ 32) ∧
    (∃ (t : State) (v : Word), exec (.srli rd rs1 imm) s = .next t ∧ ResultIs s t rd v (s.pc + 4) ∧
      v.toNat = (s.readReg rs1).toNat / 2 ^ (imm.toNat % 32))

/-- The same four under `SHAMT_RULE = full`: the whole operand is the amount, and 32 or more gives 0
(`92_eei_decisions.md` D5; entry 5). An immediate is 32 or more when any of its bits 11:5 is set, since it is
sign-extended. -/
def Obligations.ShiftsByTheFullOperand : Prop :=
  ∀ (s : State) (rd rs1 rs2 : Reg) (imm : BitVec 12), s.params.shamt = .full →
    (∃ (t : State) (v : Word), exec (.sll rd rs1 rs2) s = .next t ∧ ResultIs s t rd v (s.pc + 4) ∧
      v.toNat = if 32 ≤ (s.readReg rs2).toNat then 0
        else (s.readReg rs1).toNat * 2 ^ (s.readReg rs2).toNat % 2 ^ 32) ∧
    (∃ (t : State) (v : Word), exec (.srl rd rs1 rs2) s = .next t ∧ ResultIs s t rd v (s.pc + 4) ∧
      v.toNat = if 32 ≤ (s.readReg rs2).toNat then 0
        else (s.readReg rs1).toNat / 2 ^ (s.readReg rs2).toNat) ∧
    (∃ (t : State) (v : Word), exec (.slli rd rs1 imm) s = .next t ∧ ResultIs s t rd v (s.pc + 4) ∧
      v.toNat = if 32 ≤ imm.toNat then 0 else (s.readReg rs1).toNat * 2 ^ imm.toNat % 2 ^ 32) ∧
    (∃ (t : State) (v : Word), exec (.srli rd rs1 imm) s = .next t ∧ ResultIs s t rd v (s.pc + 4) ∧
      v.toNat = if 32 ≤ imm.toNat then 0 else (s.readReg rs1).toNat / 2 ^ imm.toNat)

/-- MUL (`40_execute_cycle.md` R127, `41_alu_register.md` R158): the low 32 bits of the signed product, which are those
of the unsigned one too. That the low half is returned is the spec's decision D7 (entry 14). -/
def Obligations.MultiplyReturnsTheLowHalf : Prop :=
  ∀ (s : State) (rd rs1 rs2 : Reg),
    ∃ (t : State) (v : Word), exec (.mul rd rs1 rs2) s = .next t ∧ ResultIs s t rd v (s.pc + 4) ∧
      (v.toNat : Int) = ((s.readReg rs1).toInt * (s.readReg rs2).toInt) % 2 ^ 32 ∧
      v.toNat = ((s.readReg rs1).toNat * (s.readReg rs2).toNat) % 2 ^ 32

/-- DIV and REM (`40_execute_cycle.md` R127, `41_alu_register.md` R159, R160), for a divisor that is not 0: the quotient
is rounded toward zero, which is to say that `quotient × divisor + remainder` is the dividend, the remainder is smaller in
magnitude than the divisor, and it has the dividend's sign or is 0. The pair `-2^31` by `-1` and the zero divisor have
statements of their own below. -/
def Obligations.DivideAndRemainder : Prop :=
  ∀ (s : State) (rd rs1 rs2 : Reg), s.readReg rs2 ≠ 0 →
    ¬ (s.readReg rs1 = 0x80000000#32 ∧ s.readReg rs2 = 0xFFFFFFFF#32) →
    ∃ (t u : State) (q r : Word),
      exec (.div rd rs1 rs2) s = .next t ∧ ResultIs s t rd q (s.pc + 4) ∧
      exec (.rem rd rs1 rs2) s = .next u ∧ ResultIs s u rd r (s.pc + 4) ∧
      q.toInt * (s.readReg rs2).toInt + r.toInt = (s.readReg rs1).toInt ∧
      r.toInt.natAbs < (s.readReg rs2).toInt.natAbs ∧
      (0 ≤ (s.readReg rs1).toInt → 0 ≤ r.toInt) ∧ ((s.readReg rs1).toInt ≤ 0 → r.toInt ≤ 0)

/-- DIV and REM at the corners, under the default `DIV_CORNER_RULE = riscv`: all ones and the dividend for a zero
divisor, the dividend and 0 for `-2^31` by `-1`, and no fault. The four values are the spec's decision D6 (entry 6). -/
def Obligations.DivisionCorners : Prop :=
  ∀ (s : State) (rd rs1 rs2 : Reg), s.params.divCorner = .riscv →
    (s.readReg rs2 = 0 →
      ∃ t u : State, exec (.div rd rs1 rs2) s = .next t ∧ ResultIs s t rd 0xFFFFFFFF#32 (s.pc + 4) ∧
        exec (.rem rd rs1 rs2) s = .next u ∧ ResultIs s u rd (s.readReg rs1) (s.pc + 4)) ∧
    (s.readReg rs1 = 0x80000000#32 → s.readReg rs2 = 0xFFFFFFFF#32 →
      ∃ t u : State, exec (.div rd rs1 rs2) s = .next t ∧ ResultIs s t rd 0x80000000#32 (s.pc + 4) ∧
        exec (.rem rd rs1 rs2) s = .next u ∧ ResultIs s u rd 0 (s.pc + 4))

/-- DIV and REM at the corners under `DIV_CORNER_RULE = refuse`: the model gives no result (`92_eei_decisions.md` D6;
entry 6). -/
def Obligations.DivisionCornersRefused : Prop :=
  ∀ (s : State) (rd rs1 rs2 : Reg), s.params.divCorner = .refuse →
    (s.readReg rs2 = 0 ∨ (s.readReg rs1 = 0x80000000#32 ∧ s.readReg rs2 = 0xFFFFFFFF#32)) →
    exec (.div rd rs1 rs2) s = .refused (.divisionCorner (s.readReg rs1) (s.readReg rs2)) ∧
    exec (.rem rd rs1 rs2) s = .refused (.divisionCorner (s.readReg rs1) (s.readReg rs2))

/-- LUI and AUIPC (`46_upper_immediate.md` R210 to R212). The wrap of AUIPC's sum is the spec's decision D15. -/
def Obligations.UpperImmediates : Prop :=
  ∀ (s : State) (rd : Reg) (imm : BitVec 20),
    (∃ (t : State) (v : Word), exec (.lui rd imm) s = .next t ∧ ResultIs s t rd v (s.pc + 4) ∧
      v.toNat = imm.toNat * 2 ^ 12) ∧
    (∃ (t : State) (v : Word), exec (.auipc rd imm) s = .next t ∧ ResultIs s t rd v (s.pc + 4) ∧
      v.toNat = (s.pc.toNat + imm.toNat * 2 ^ 12) % 2 ^ 32)

/-! ## Loads and stores -/

/-- LW (`43_load_store.md` R180, R181): an aligned address inside data memory, the four bytes there lowest first. The
funct3 plays no part unless `STRICT_FUNCT3` is true (D10, entry 7), and the bound is the spec's D13 (entry 8). -/
def Obligations.LoadWord : Prop :=
  ∀ (s : State) (rd rs1 : Reg) (imm : BitVec 12) (f3 : BitVec 3),
    (s.params.strictFunct3 = false ∨ f3 = 2#3) →
    (s.basePlus rs1 imm).toNat % 4 = 0 → (s.basePlus rs1 imm).toNat + 3 < s.params.dmemSize →
    ∃ (t : State) (v : Word), exec (.lw rd rs1 imm f3) s = .next t ∧ ResultIs s t rd v (s.pc + 4) ∧
      ∀ k : Nat, k < 4 → v.extractLsb' (8 * k) 8 = s.dmem.read ((s.basePlus rs1 imm).toNat + k)

/-- SW (`43_load_store.md` R180, R182): the four bytes of `x[rs2]` lowest first at the effective address, those four
marked touched, every other byte and mark as before, no register written. That the data is `x[rs2]` is the spec's
decision D11; the bound is its D13 (entry 8), the funct3 its D10 (entry 7). -/
def Obligations.StoreWord : Prop :=
  ∀ (s : State) (rs2 rs1 : Reg) (imm : BitVec 12) (f3 : BitVec 3),
    (s.params.strictFunct3 = false ∨ f3 = 2#3) →
    (s.basePlus rs1 imm).toNat % 4 = 0 → (s.basePlus rs1 imm).toNat + 3 < s.params.dmemSize →
    ∃ t : State, exec (.sw rs2 rs1 imm f3) s = .next t ∧ Retires s t (s.pc + 4) ∧ KeepsRegisters s t ∧
      (∀ k : Nat, k < 4 →
        t.dmem.read ((s.basePlus rs1 imm).toNat + k) = (s.readReg rs2).extractLsb' (8 * k) 8) ∧
      (∀ a : Nat, a < (s.basePlus rs1 imm).toNat ∨ (s.basePlus rs1 imm).toNat + 4 ≤ a →
        t.dmem.read a = s.dmem.read a) ∧
      (∀ a : Nat, a ∈ t.touched ↔
        ((s.basePlus rs1 imm).toNat ≤ a ∧ a < (s.basePlus rs1 imm).toNat + 4) ∨ a ∈ s.touched)

/-- The one addressing mode (`20_memory.md` R55): base plus displacement, the wrap being the spec's decision D15. -/
def Obligations.EffectiveAddress : Prop :=
  ∀ (s : State) (rs1 : Reg) (imm : BitVec 12),
    ((s.basePlus rs1 imm).toNat : Int) = ((s.readReg rs1).toNat + imm.toInt : Int) % 2 ^ 32

/-- LW and SW at a bad address (`43_load_store.md` R181, R182): the fault of their address, whatever `rd` is, and
nothing written or marked. Alignment is tested first; the bounds fault and this order are the spec's decision D13 (entry
8), the aborted state its D16 (entry 3). -/
def Obligations.BadDataAddressAborts : Prop :=
  ∀ (s : State) (rd rs1 rs2 : Reg) (imm : BitVec 12) (f3 : BitVec 3),
    (s.params.strictFunct3 = false ∨ f3 = 2#3) →
    ((s.basePlus rs1 imm).toNat % 4 ≠ 0 →
      exec (.lw rd rs1 imm f3) s = abortOf (.dataMisaligned (s.basePlus rs1 imm)) s ∧
      exec (.sw rs2 rs1 imm f3) s = abortOf (.dataMisaligned (s.basePlus rs1 imm)) s) ∧
    ((s.basePlus rs1 imm).toNat % 4 = 0 → s.params.dmemSize ≤ (s.basePlus rs1 imm).toNat + 3 →
      exec (.lw rd rs1 imm f3) s = abortOf (.dataOutOfRange (s.basePlus rs1 imm)) s ∧
      exec (.sw rs2 rs1 imm f3) s = abortOf (.dataOutOfRange (s.basePlus rs1 imm)) s)

/-- `20_memory.md` R63: a load returns the value of the most recent store to the same four bytes, and a store to other
bytes does not change what it returns. -/
def Obligations.LoadReturnsTheLastStore : Prop :=
  ∀ (s t : State) (rs2 rs1 rd rb : Reg) (imm disp : BitVec 12),
    s.run = .running → exec (.sw rs2 rs1 imm 2#3) s = .next t → t.run = .running →
    ((s.basePlus rs1 imm) = t.basePlus rb disp → t.memRead (t.basePlus rb disp) = .ok (s.readReg rs2)) ∧
    ((s.basePlus rs1 imm) ≠ t.basePlus rb disp →
      t.memRead (t.basePlus rb disp) = s.memRead (s.basePlus rb disp)) ∧
    (∀ u : State, exec (.lw rd rb disp 2#3) t = .next u → u.run = .running → rd ≠ 0 →
      t.memRead (t.basePlus rb disp) = .ok (u.readReg rd))

/-- `30_encoding.md` R103, `43_load_store.md` R183: with `STRICT_FUNCT3 = false` all eight values of funct3 do the same,
with `true` those that are not canonical are refused. Both are the spec's decision D10 (entry 7). -/
def Obligations.UnexaminedFunct3 : Prop :=
  ∀ (s : State) (rd rs1 rs2 : Reg) (imm : BitVec 12) (f3 : BitVec 3),
    (s.params.strictFunct3 = false →
      exec (.lw rd rs1 imm f3) s = exec (.lw rd rs1 imm 2#3) s ∧
      exec (.sw rs2 rs1 imm f3) s = exec (.sw rs2 rs1 imm 2#3) s ∧
      exec (.jalr rd rs1 imm f3) s = exec (.jalr rd rs1 imm 0#3) s) ∧
    (s.params.strictFunct3 = true →
      (f3 ≠ 2#3 → exec (.lw rd rs1 imm f3) s = .refused (.nonCanonicalFunct3 f3) ∧
        exec (.sw rs2 rs1 imm f3) s = .refused (.nonCanonicalFunct3 f3)) ∧
      (f3 ≠ 0#3 → exec (.jalr rd rs1 imm f3) s = .refused (.nonCanonicalFunct3 f3)))

/-! ## Branches and jumps -/

/-- The six branches (`44_branch.md` R190 to R196): taken on their condition, and then `pc` moves by the signed offset,
else by 4; nothing else changes but `clock`. The wrap is the spec's decision D15. -/
def Obligations.BranchesGoToTheirTarget : Prop :=
  ∀ (s : State) (rs1 rs2 : Reg) (off : BitVec 13), ∃ target : Word,
    (target.toNat : Int) = (s.pc.toNat + off.toInt : Int) % 2 ^ 32 ∧
    (∃ t : State, exec (.beq rs1 rs2 off) s = .next t ∧
      OnlyGoesTo s t (if s.readReg rs1 = s.readReg rs2 then target else s.pc + 4)) ∧
    (∃ t : State, exec (.bne rs1 rs2 off) s = .next t ∧
      OnlyGoesTo s t (if s.readReg rs1 ≠ s.readReg rs2 then target else s.pc + 4)) ∧
    (∃ t : State, exec (.blt rs1 rs2 off) s = .next t ∧
      OnlyGoesTo s t (if (s.readReg rs1).toInt < (s.readReg rs2).toInt then target else s.pc + 4)) ∧
    (∃ t : State, exec (.bge rs1 rs2 off) s = .next t ∧
      OnlyGoesTo s t (if (s.readReg rs1).toInt ≥ (s.readReg rs2).toInt then target else s.pc + 4)) ∧
    (∃ t : State, exec (.bltu rs1 rs2 off) s = .next t ∧
      OnlyGoesTo s t (if (s.readReg rs1).toNat < (s.readReg rs2).toNat then target else s.pc + 4)) ∧
    (∃ t : State, exec (.bgeu rs1 rs2 off) s = .next t ∧
      OnlyGoesTo s t (if (s.readReg rs1).toNat ≥ (s.readReg rs2).toNat then target else s.pc + 4))

/-- `40_execute_cycle.md` R128: the table of the six conditions and the gate-level form with the control flag agree, and
there is no condition for 010 and 011. The codes are the spec's decision D4 (entry 1). -/
def Obligations.BranchGatesAgree : Prop :=
  ∀ (f3 : BitVec 3) (a b : Word),
    (f3 = 2#3 ∨ f3 = 3#3 → branchTaken f3 a b = none) ∧
    (f3 ≠ 2#3 → f3 ≠ 3#3 → branchTaken f3 a b = some (branchTakenGates (f3.getLsbD 1) f3 a b))

/-- JAL and JALR (`45_jump.md` R200 to R202): the link is the address of the jump plus 4; JALR's target is read before
`rd` is written and keeps its bit 0. The wraps are the spec's decision D15, JALR's funct3 its D10 (entry 7). -/
def Obligations.JumpsLinkAndGo : Prop :=
  ∀ (s : State) (rd rs1 : Reg) (off : BitVec 21) (imm : BitVec 12) (f3 : BitVec 3),
    (∃ (t : State) (target : Word), exec (.jal rd off) s = .next t ∧ ResultIs s t rd (s.pc + 4) target ∧
      (target.toNat : Int) = (s.pc.toNat + off.toInt : Int) % 2 ^ 32) ∧
    ((s.params.strictFunct3 = false ∨ f3 = 0#3) →
      ∃ (t : State) (target : Word), exec (.jalr rd rs1 imm f3) s = .next t ∧ ResultIs s t rd (s.pc + 4) target ∧
        (target.toNat : Int) = ((s.readReg rs1).toNat + imm.toInt : Int) % 2 ^ 32)

/-- `10_state.md` R27, `40_execute_cycle.md` R135: a bad target does not fault in the cycle that writes it; that cycle
retires, and the next step raises the fetch fault with the target as its address. The bounds fault is the spec's decision
D13 (entry 8), the aborted state its D16 (entry 3). -/
def Obligations.BadTargetFaultsAtTheNextFetch : Prop :=
  ∀ (s t : State) (i : Instr), s.run = .running → exec i s = .next t →
    (i.accessesData = false → t.run = .running) ∧
    (t.run = .running → t.clock = s.clock + 1 ∧
      (t.readReg 31 ≠ 0xDEADBEEF#32 →
        (t.pc.toNat % 4 ≠ 0 → step t = abortOf (.fetchMisaligned t.pc) t) ∧
        (t.pc.toNat % 4 = 0 → 32768 ≤ t.pc.toNat → step t = abortOf (.fetchOutOfRange t.pc) t)))
end

