-- ==== Sys2Proof/Laws/Decode.lean ====
section
/-! SUPPORT. The fields of an encoded word (`30_encoding.md` R110): each encoder's fields come back from the positions
of R81 and R89 to R93. -/

namespace Sys2Proof

/-! ## Format R -/

@[simp] theorem opcodeOf_encR (f7 : BitVec 7) (rs2 rs1 : Reg) (f3 : BitVec 3) (rd : Reg) (op : BitVec 7) :
    opcodeOf (encR f7 rs2 rs1 f3 rd op) = op := by
  ext i hi
  simp only [opcodeOf, encR]
  grind (ematch := 30) (gen := 30) only [BitVec.getElem_append, BitVec.getElem_extractLsb', BitVec.getLsbD_append,
    BitVec.getLsbD_extractLsb', BitVec.getLsbD_eq_getElem, BitVec.getLsbD_of_ge]
@[simp] theorem rdOf_encR (f7 : BitVec 7) (rs2 rs1 : Reg) (f3 : BitVec 3) (rd : Reg) (op : BitVec 7) :
    rdOf (encR f7 rs2 rs1 f3 rd op) = rd := by
  ext i hi
  simp only [rdOf, encR]
  grind (ematch := 30) (gen := 30) only [BitVec.getElem_append, BitVec.getElem_extractLsb', BitVec.getLsbD_append,
    BitVec.getLsbD_extractLsb', BitVec.getLsbD_eq_getElem, BitVec.getLsbD_of_ge]
@[simp] theorem rs1Of_encR (f7 : BitVec 7) (rs2 rs1 : Reg) (f3 : BitVec 3) (rd : Reg) (op : BitVec 7) :
    rs1Of (encR f7 rs2 rs1 f3 rd op) = rs1 := by
  ext i hi
  simp only [rs1Of, encR]
  grind (ematch := 30) (gen := 30) only [BitVec.getElem_append, BitVec.getElem_extractLsb', BitVec.getLsbD_append,
    BitVec.getLsbD_extractLsb', BitVec.getLsbD_eq_getElem, BitVec.getLsbD_of_ge]
@[simp] theorem rs2Of_encR (f7 : BitVec 7) (rs2 rs1 : Reg) (f3 : BitVec 3) (rd : Reg) (op : BitVec 7) :
    rs2Of (encR f7 rs2 rs1 f3 rd op) = rs2 := by
  ext i hi
  simp only [rs2Of, encR]
  grind (ematch := 30) (gen := 30) only [BitVec.getElem_append, BitVec.getElem_extractLsb', BitVec.getLsbD_append,
    BitVec.getLsbD_extractLsb', BitVec.getLsbD_eq_getElem, BitVec.getLsbD_of_ge]
@[simp] theorem funct3Of_encR (f7 : BitVec 7) (rs2 rs1 : Reg) (f3 : BitVec 3) (rd : Reg) (op : BitVec 7) :
    funct3Of (encR f7 rs2 rs1 f3 rd op) = f3 := by
  ext i hi
  simp only [funct3Of, encR]
  grind (ematch := 30) (gen := 30) only [BitVec.getElem_append, BitVec.getElem_extractLsb', BitVec.getLsbD_append,
    BitVec.getLsbD_extractLsb', BitVec.getLsbD_eq_getElem, BitVec.getLsbD_of_ge]
@[simp] theorem funct7Of_encR (f7 : BitVec 7) (rs2 rs1 : Reg) (f3 : BitVec 3) (rd : Reg) (op : BitVec 7) :
    funct7Of (encR f7 rs2 rs1 f3 rd op) = f7 := by
  ext i hi
  simp only [funct7Of, encR]
  grind (ematch := 30) (gen := 30) only [BitVec.getElem_append, BitVec.getElem_extractLsb', BitVec.getLsbD_append,
    BitVec.getLsbD_extractLsb', BitVec.getLsbD_eq_getElem, BitVec.getLsbD_of_ge]
@[simp] theorem functOp_encR (f7 : BitVec 7) (rs2 rs1 : Reg) (f3 : BitVec 3) (rd : Reg) (op : BitVec 7) :
    functOp (encR f7 rs2 rs1 f3 rd op) = f7 ++ f3 := by
  ext i hi
  simp only [functOp, funct7Of, funct3Of, encR]
  grind (ematch := 30) (gen := 30) only [BitVec.getElem_append, BitVec.getElem_extractLsb', BitVec.getLsbD_append,
    BitVec.getLsbD_extractLsb', BitVec.getLsbD_eq_getElem, BitVec.getLsbD_of_ge]

/-! ## Format I -/

@[simp] theorem opcodeOf_encI (imm : BitVec 12) (rs1 : Reg) (f3 : BitVec 3) (rd : Reg) (op : BitVec 7) :
    opcodeOf (encI imm rs1 f3 rd op) = op := by
  ext i hi
  simp only [opcodeOf, encI]
  grind (ematch := 30) (gen := 30) only [BitVec.getElem_append, BitVec.getElem_extractLsb', BitVec.getLsbD_append,
    BitVec.getLsbD_extractLsb', BitVec.getLsbD_eq_getElem, BitVec.getLsbD_of_ge]
@[simp] theorem rdOf_encI (imm : BitVec 12) (rs1 : Reg) (f3 : BitVec 3) (rd : Reg) (op : BitVec 7) :
    rdOf (encI imm rs1 f3 rd op) = rd := by
  ext i hi
  simp only [rdOf, encI]
  grind (ematch := 30) (gen := 30) only [BitVec.getElem_append, BitVec.getElem_extractLsb', BitVec.getLsbD_append,
    BitVec.getLsbD_extractLsb', BitVec.getLsbD_eq_getElem, BitVec.getLsbD_of_ge]
@[simp] theorem rs1Of_encI (imm : BitVec 12) (rs1 : Reg) (f3 : BitVec 3) (rd : Reg) (op : BitVec 7) :
    rs1Of (encI imm rs1 f3 rd op) = rs1 := by
  ext i hi
  simp only [rs1Of, encI]
  grind (ematch := 30) (gen := 30) only [BitVec.getElem_append, BitVec.getElem_extractLsb', BitVec.getLsbD_append,
    BitVec.getLsbD_extractLsb', BitVec.getLsbD_eq_getElem, BitVec.getLsbD_of_ge]
@[simp] theorem funct3Of_encI (imm : BitVec 12) (rs1 : Reg) (f3 : BitVec 3) (rd : Reg) (op : BitVec 7) :
    funct3Of (encI imm rs1 f3 rd op) = f3 := by
  ext i hi
  simp only [funct3Of, encI]
  grind (ematch := 30) (gen := 30) only [BitVec.getElem_append, BitVec.getElem_extractLsb', BitVec.getLsbD_append,
    BitVec.getLsbD_extractLsb', BitVec.getLsbD_eq_getElem, BitVec.getLsbD_of_ge]
@[simp] theorem iField_encI (imm : BitVec 12) (rs1 : Reg) (f3 : BitVec 3) (rd : Reg) (op : BitVec 7) :
    iField (encI imm rs1 f3 rd op) = imm := by
  ext i hi
  simp only [iField, encI]
  grind (ematch := 30) (gen := 30) only [BitVec.getElem_append, BitVec.getElem_extractLsb', BitVec.getLsbD_append,
    BitVec.getLsbD_extractLsb', BitVec.getLsbD_eq_getElem, BitVec.getLsbD_of_ge]

/-! ## Format S -/

@[simp] theorem opcodeOf_encS (imm : BitVec 12) (rs2 rs1 : Reg) (f3 : BitVec 3) (op : BitVec 7) :
    opcodeOf (encS imm rs2 rs1 f3 op) = op := by
  ext i hi
  simp only [opcodeOf, encS]
  grind (ematch := 30) (gen := 30) only [BitVec.getElem_append, BitVec.getElem_extractLsb', BitVec.getLsbD_append,
    BitVec.getLsbD_extractLsb', BitVec.getLsbD_eq_getElem, BitVec.getLsbD_of_ge]
@[simp] theorem rs1Of_encS (imm : BitVec 12) (rs2 rs1 : Reg) (f3 : BitVec 3) (op : BitVec 7) :
    rs1Of (encS imm rs2 rs1 f3 op) = rs1 := by
  ext i hi
  simp only [rs1Of, encS]
  grind (ematch := 30) (gen := 30) only [BitVec.getElem_append, BitVec.getElem_extractLsb', BitVec.getLsbD_append,
    BitVec.getLsbD_extractLsb', BitVec.getLsbD_eq_getElem, BitVec.getLsbD_of_ge]
@[simp] theorem rs2Of_encS (imm : BitVec 12) (rs2 rs1 : Reg) (f3 : BitVec 3) (op : BitVec 7) :
    rs2Of (encS imm rs2 rs1 f3 op) = rs2 := by
  ext i hi
  simp only [rs2Of, encS]
  grind (ematch := 30) (gen := 30) only [BitVec.getElem_append, BitVec.getElem_extractLsb', BitVec.getLsbD_append,
    BitVec.getLsbD_extractLsb', BitVec.getLsbD_eq_getElem, BitVec.getLsbD_of_ge]
@[simp] theorem funct3Of_encS (imm : BitVec 12) (rs2 rs1 : Reg) (f3 : BitVec 3) (op : BitVec 7) :
    funct3Of (encS imm rs2 rs1 f3 op) = f3 := by
  ext i hi
  simp only [funct3Of, encS]
  grind (ematch := 30) (gen := 30) only [BitVec.getElem_append, BitVec.getElem_extractLsb', BitVec.getLsbD_append,
    BitVec.getLsbD_extractLsb', BitVec.getLsbD_eq_getElem, BitVec.getLsbD_of_ge]
@[simp] theorem sField_encS (imm : BitVec 12) (rs2 rs1 : Reg) (f3 : BitVec 3) (op : BitVec 7) :
    sField (encS imm rs2 rs1 f3 op) = imm := by
  ext i hi
  simp only [sField, encS]
  grind (ematch := 30) (gen := 30) only [BitVec.getElem_append, BitVec.getElem_extractLsb', BitVec.getLsbD_append,
    BitVec.getLsbD_extractLsb', BitVec.getLsbD_eq_getElem, BitVec.getLsbD_of_ge]

/-! ## Format B -/

@[simp] theorem opcodeOf_encB (off : BitVec 13) (rs2 rs1 : Reg) (f3 : BitVec 3) (op : BitVec 7) :
    opcodeOf (encB off rs2 rs1 f3 op) = op := by
  ext i hi
  simp only [opcodeOf, encB]
  grind (ematch := 30) (gen := 30) only [BitVec.getElem_append, BitVec.getElem_extractLsb', BitVec.getLsbD_append,
    BitVec.getLsbD_extractLsb', BitVec.getLsbD_eq_getElem, BitVec.getLsbD_of_ge]
@[simp] theorem rs1Of_encB (off : BitVec 13) (rs2 rs1 : Reg) (f3 : BitVec 3) (op : BitVec 7) :
    rs1Of (encB off rs2 rs1 f3 op) = rs1 := by
  ext i hi
  simp only [rs1Of, encB]
  grind (ematch := 30) (gen := 30) only [BitVec.getElem_append, BitVec.getElem_extractLsb', BitVec.getLsbD_append,
    BitVec.getLsbD_extractLsb', BitVec.getLsbD_eq_getElem, BitVec.getLsbD_of_ge]
@[simp] theorem rs2Of_encB (off : BitVec 13) (rs2 rs1 : Reg) (f3 : BitVec 3) (op : BitVec 7) :
    rs2Of (encB off rs2 rs1 f3 op) = rs2 := by
  ext i hi
  simp only [rs2Of, encB]
  grind (ematch := 30) (gen := 30) only [BitVec.getElem_append, BitVec.getElem_extractLsb', BitVec.getLsbD_append,
    BitVec.getLsbD_extractLsb', BitVec.getLsbD_eq_getElem, BitVec.getLsbD_of_ge]
@[simp] theorem funct3Of_encB (off : BitVec 13) (rs2 rs1 : Reg) (f3 : BitVec 3) (op : BitVec 7) :
    funct3Of (encB off rs2 rs1 f3 op) = f3 := by
  ext i hi
  simp only [funct3Of, encB]
  grind (ematch := 30) (gen := 30) only [BitVec.getElem_append, BitVec.getElem_extractLsb', BitVec.getLsbD_append,
    BitVec.getLsbD_extractLsb', BitVec.getLsbD_eq_getElem, BitVec.getLsbD_of_ge]

/-- Bit 0 of an even offset. -/
theorem evenBranchOffset_bit (off : BitVec 13) (h : evenBranchOffset off = true) : off.getLsbD 0 = false := by
  have := congrArg (fun v : BitVec 1 => v.getLsbD 0) (eq_of_beq h)
  simpa using this

/-- Bit 0 of an even offset. -/
theorem evenJumpOffset_bit (off : BitVec 21) (h : evenJumpOffset off = true) : off.getLsbD 0 = false := by
  have := congrArg (fun v : BitVec 1 => v.getLsbD 0) (eq_of_beq h)
  simpa using this

theorem bField_encB (off : BitVec 13) (rs2 rs1 : Reg) (f3 : BitVec 3) (op : BitVec 7)
    (h : evenBranchOffset off = true) : bField (encB off rs2 rs1 f3 op) = off := by
  have h0 := evenBranchOffset_bit off h
  ext i hi
  simp only [bField, encB]
  grind (ematch := 30) (gen := 30) only [BitVec.getElem_append, BitVec.getElem_extractLsb', BitVec.getLsbD_append,
    BitVec.getLsbD_extractLsb', BitVec.getLsbD_eq_getElem, BitVec.getLsbD_of_ge, BitVec.getElem_zero]

/-! ## Formats U and J -/

@[simp] theorem opcodeOf_encU (imm : BitVec 20) (rd : Reg) (op : BitVec 7) : opcodeOf (encU imm rd op) = op := by
  ext i hi
  simp only [opcodeOf, encU]
  grind (ematch := 30) (gen := 30) only [BitVec.getElem_append, BitVec.getElem_extractLsb', BitVec.getLsbD_append,
    BitVec.getLsbD_extractLsb', BitVec.getLsbD_eq_getElem, BitVec.getLsbD_of_ge]
@[simp] theorem rdOf_encU (imm : BitVec 20) (rd : Reg) (op : BitVec 7) : rdOf (encU imm rd op) = rd := by
  ext i hi
  simp only [rdOf, encU]
  grind (ematch := 30) (gen := 30) only [BitVec.getElem_append, BitVec.getElem_extractLsb', BitVec.getLsbD_append,
    BitVec.getLsbD_extractLsb', BitVec.getLsbD_eq_getElem, BitVec.getLsbD_of_ge]
@[simp] theorem uField_encU (imm : BitVec 20) (rd : Reg) (op : BitVec 7) : uField (encU imm rd op) = imm := by
  ext i hi
  simp only [uField, encU]
  grind (ematch := 30) (gen := 30) only [BitVec.getElem_append, BitVec.getElem_extractLsb', BitVec.getLsbD_append,
    BitVec.getLsbD_extractLsb', BitVec.getLsbD_eq_getElem, BitVec.getLsbD_of_ge]

@[simp] theorem opcodeOf_encJ (off : BitVec 21) (rd : Reg) (op : BitVec 7) : opcodeOf (encJ off rd op) = op := by
  ext i hi
  simp only [opcodeOf, encJ]
  grind (ematch := 30) (gen := 30) only [BitVec.getElem_append, BitVec.getElem_extractLsb', BitVec.getLsbD_append,
    BitVec.getLsbD_extractLsb', BitVec.getLsbD_eq_getElem, BitVec.getLsbD_of_ge]
@[simp] theorem rdOf_encJ (off : BitVec 21) (rd : Reg) (op : BitVec 7) : rdOf (encJ off rd op) = rd := by
  ext i hi
  simp only [rdOf, encJ]
  grind (ematch := 30) (gen := 30) only [BitVec.getElem_append, BitVec.getElem_extractLsb', BitVec.getLsbD_append,
    BitVec.getLsbD_extractLsb', BitVec.getLsbD_eq_getElem, BitVec.getLsbD_of_ge]
theorem jField_encJ (off : BitVec 21) (rd : Reg) (op : BitVec 7) (h : evenJumpOffset off = true) :
    jField (encJ off rd op) = off := by
  have h0 := evenJumpOffset_bit off h
  ext i hi
  simp only [jField, encJ]
  grind (ematch := 30) (gen := 30) only [BitVec.getElem_append, BitVec.getElem_extractLsb', BitVec.getLsbD_append,
    BitVec.getLsbD_extractLsb', BitVec.getLsbD_eq_getElem, BitVec.getLsbD_of_ge, BitVec.getElem_zero]

/-! ## The fields put together again -/

/-- A word is its R-format fields. -/
theorem encR_fields (w : Word) :
    encR (funct7Of w) (rs2Of w) (rs1Of w) (funct3Of w) (rdOf w) (opcodeOf w) = w := by
  ext i hi
  simp only [encR, funct7Of, rs2Of, rs1Of, funct3Of, rdOf, opcodeOf]
  grind (ematch := 30) (gen := 30) only [BitVec.getElem_append, BitVec.getElem_extractLsb', BitVec.getLsbD_append,
    BitVec.getLsbD_extractLsb', BitVec.getLsbD_eq_getElem, BitVec.getLsbD_of_ge]

/-- A word is its I-format fields. -/
theorem encI_fields (w : Word) : encI (iField w) (rs1Of w) (funct3Of w) (rdOf w) (opcodeOf w) = w := by
  ext i hi
  simp only [encI, iField, rs1Of, funct3Of, rdOf, opcodeOf]
  grind (ematch := 30) (gen := 30) only [BitVec.getElem_append, BitVec.getElem_extractLsb', BitVec.getLsbD_append,
    BitVec.getLsbD_extractLsb', BitVec.getLsbD_eq_getElem, BitVec.getLsbD_of_ge]

/-- A word is its S-format fields. -/
theorem encS_fields (w : Word) : encS (sField w) (rs2Of w) (rs1Of w) (funct3Of w) (opcodeOf w) = w := by
  ext i hi
  simp only [encS, sField, rs2Of, rs1Of, funct3Of, opcodeOf]
  grind (ematch := 30) (gen := 30) only [BitVec.getElem_append, BitVec.getElem_extractLsb', BitVec.getLsbD_append,
    BitVec.getLsbD_extractLsb', BitVec.getLsbD_eq_getElem, BitVec.getLsbD_of_ge]

/-- A word is its B-format fields. -/
theorem encB_fields (w : Word) : encB (bField w) (rs2Of w) (rs1Of w) (funct3Of w) (opcodeOf w) = w := by
  ext i hi
  simp only [encB, bField, rs2Of, rs1Of, funct3Of, opcodeOf]
  grind (ematch := 30) (gen := 30) only [BitVec.getElem_append, BitVec.getElem_extractLsb', BitVec.getLsbD_append,
    BitVec.getLsbD_extractLsb', BitVec.getLsbD_eq_getElem, BitVec.getLsbD_of_ge]

/-- A word is its U-format fields. -/
theorem encU_fields (w : Word) : encU (uField w) (rdOf w) (opcodeOf w) = w := by
  ext i hi
  simp only [encU, uField, rdOf, opcodeOf]
  grind (ematch := 30) (gen := 30) only [BitVec.getElem_append, BitVec.getElem_extractLsb', BitVec.getLsbD_append,
    BitVec.getLsbD_extractLsb', BitVec.getLsbD_eq_getElem, BitVec.getLsbD_of_ge]

/-- A word is its J-format fields. -/
theorem encJ_fields (w : Word) : encJ (jField w) (rdOf w) (opcodeOf w) = w := by
  ext i hi
  simp only [encJ, jField, rdOf, opcodeOf]
  grind (ematch := 30) (gen := 30) only [BitVec.getElem_append, BitVec.getElem_extractLsb', BitVec.getLsbD_append,
    BitVec.getLsbD_extractLsb', BitVec.getLsbD_eq_getElem, BitVec.getLsbD_of_ge]

/-! ## The masks of the opcode table, field by field -/

/-- The mask that keeps the opcode alone. -/
theorem mask_opcode (w : Word) : w &&& 0x0000007F#32 = (opcodeOf w).setWidth 32 := by
  ext i hi
  simp only [opcodeOf]
  interval_cases i <;> simp

/-- The mask that keeps opcode and funct3. -/
theorem mask_funct3 (w : Word) :
    w &&& 0x0000707F#32 = ((funct3Of w).setWidth 32 <<< 12) ||| (opcodeOf w).setWidth 32 := by
  ext i hi
  simp only [opcodeOf, funct3Of]
  interval_cases i <;> simp

/-- The mask that keeps opcode, funct3 and funct7. -/
theorem mask_funct7 (w : Word) :
    w &&& 0xFE00707F#32 =
      ((funct7Of w).setWidth 32 <<< 25) ||| ((funct3Of w).setWidth 32 <<< 12) ||| (opcodeOf w).setWidth 32 := by
  ext i hi
  simp only [opcodeOf, funct3Of, funct7Of]
  interval_cases i <;> simp

end Sys2Proof
end

