-- ==== Sys2Proof/Laws/Memory.lean ====
section
/-! SUPPORT. What the memory operations do: a read after a write, everything else unchanged, the canonical form kept. -/

namespace Sys2Proof

/-- The four bytes of a word put together again. -/
@[simp] theorem wordOfBytes_byteOf (v : Word) :
    wordOfBytes (byteOf v 0) (byteOf v 1) (byteOf v 2) (byteOf v 3) = v := by
  ext i hi
  simp only [wordOfBytes, byteOf]
  grind

/-- The bytes of a word made of four bytes. -/
theorem byteOf_wordOfBytes (b0 b1 b2 b3 : Byte) :
    byteOf (wordOfBytes b0 b1 b2 b3) 0 = b0 ∧ byteOf (wordOfBytes b0 b1 b2 b3) 1 = b1 ∧
    byteOf (wordOfBytes b0 b1 b2 b3) 2 = b2 ∧ byteOf (wordOfBytes b0 b1 b2 b3) 3 = b3 := by
  refine ⟨?_, ?_, ?_, ?_⟩ <;>
  · ext i hi
    simp only [wordOfBytes, byteOf, BitVec.getElem_extractLsb', BitVec.getLsbD_append]
    grind

namespace Machine

/-! ## Reading -/

theorem read_insertCell (c : Host.Cell) (m : Memory) (a : Nat) (h : ∀ d ∈ m, d.1 ≠ c.1) :
    (Memory.insertCell c m).read a = if a = c.1 then c.2 else m.read a := by
  induction m with
  | nil => simp [Memory.insertCell, Memory.read, eq_comm]
  | cons d m ih =>
    have hd : d.1 ≠ c.1 := h d (by simp)
    have ih := ih (fun e he => h e (by simp [he]))
    unfold Memory.insertCell
    split
    · simp [Memory.read, eq_comm]
    · simp only [Memory.read, ih]
      grind

theorem read_filter_ne (m : Memory) (a c : Nat) :
    Memory.read (m.filter (fun d => decide (d.1 ≠ a))) c = if c = a then Memory.unlisted else m.read c := by
  induction m with
  | nil => simp [Memory.read]
  | cons d m ih =>
    simp only [List.filter_cons]
    split <;> simp only [Memory.read, ih] <;> grind

/-- A read after a write: the byte written at that address, and every other address as before. -/
theorem read_write (m : Memory) (a : Nat) (b : Byte) (c : Nat) :
    (m.write a b).read c = if c = a then b else m.read c := by
  unfold Memory.write
  split
  · rename_i hb; rw [read_filter_ne, hb]
  · rw [read_insertCell]
    · simp only [read_filter_ne]; grind
    · intro d hd; simpa using (List.mem_filter.mp hd).2

/-- A stored word, byte by byte. -/
theorem read_writeWord (m : Memory) (a : Nat) (v : Word) (c : Nat) :
    (m.writeWord a v).read c = if a ≤ c ∧ c < a + 4 then byteOf v (c - a) else m.read c := by
  simp only [Memory.writeWord, read_write]
  by_cases h : a ≤ c ∧ c < a + 4
  · obtain ⟨k, rfl⟩ : ∃ k, c = a + k := ⟨c - a, by omega⟩
    have hk : k = 0 ∨ k = 1 ∨ k = 2 ∨ k = 3 := by omega
    rcases hk with rfl | rfl | rfl | rfl <;> simp
  · rw [if_neg h, if_neg (by omega), if_neg (by omega), if_neg (by omega), if_neg (by omega)]

/-- A word stored and read back. -/
@[simp] theorem readWord_writeWord_same (m : Memory) (a : Nat) (v : Word) : (m.writeWord a v).readWord a = v := by
  have h0 := read_writeWord m a v a
  have h1 := read_writeWord m a v (a + 1)
  have h2 := read_writeWord m a v (a + 2)
  have h3 := read_writeWord m a v (a + 3)
  simp at h0 h1 h2 h3
  simp [Memory.readWord, h0, h1, h2, h3]

/-- A word that does not overlap the stored one reads as before. -/
theorem readWord_writeWord_apart (m : Memory) (a c : Nat) (v : Word) (h : c + 4 ≤ a ∨ a + 4 ≤ c) :
    (m.writeWord a v).readWord c = m.readWord c := by
  simp only [Memory.readWord, read_writeWord]
  rw [if_neg (by omega), if_neg (by omega), if_neg (by omega), if_neg (by omega)]

/-! ## The canonical form -/

/-- The two halves of the canonical form. -/
theorem wf_iff (m : Memory) : m.wf = true ↔
    List.Pairwise (fun c d : Host.Cell => c.1 < d.1) m ∧ ∀ c ∈ m, c.2 ≠ Memory.unlisted := by
  simp [Memory.wf, List.all_eq_true]

theorem mem_insertCell (c d : Host.Cell) (m : Memory) : d ∈ Memory.insertCell c m ↔ d = c ∨ d ∈ m := by
  induction m with
  | nil => simp [Memory.insertCell]
  | cons e m ih => unfold Memory.insertCell; split <;> simp [ih]; tauto

theorem pairwise_insertCell (c : Host.Cell) (m : Memory) (h : ∀ d ∈ m, d.1 ≠ c.1)
    (hm : List.Pairwise (fun c d : Host.Cell => c.1 < d.1) m) :
    List.Pairwise (fun c d : Host.Cell => c.1 < d.1) (Memory.insertCell c m) := by
  induction m with
  | nil => simp [Memory.insertCell]
  | cons e m ih =>
    have he : e.1 ≠ c.1 := h e (by simp)
    rw [List.pairwise_cons] at hm
    unfold Memory.insertCell
    split
    · rename_i hlt
      refine List.pairwise_cons.mpr ⟨fun d hd => ?_, List.pairwise_cons.mpr hm⟩
      rcases List.mem_cons.mp hd with rfl | hd
      · exact hlt
      · exact lt_trans hlt (hm.1 d hd)
    · refine List.pairwise_cons.mpr ⟨fun d hd => ?_, ih (fun d hd => h d (by simp [hd])) hm.2⟩
      rcases (mem_insertCell c d m).mp hd with rfl | hd
      · omega
      · exact hm.1 d hd

/-- What a write leaves in the list: the new cell and old ones. -/
theorem mem_write (m : Memory) (a : Nat) (b : Byte) (d : Host.Cell) (hd : d ∈ m.write a b) : d = (a, b) ∨ d ∈ m := by
  unfold Memory.write at hd
  split at hd
  · exact Or.inr (List.mem_filter.mp hd).1
  · rcases (mem_insertCell _ _ _).mp hd with rfl | hd
    · exact Or.inl rfl
    · exact Or.inr (List.mem_filter.mp hd).1

/-- Every write keeps the canonical form. -/
theorem wf_write (m : Memory) (a : Nat) (b : Byte) (h : m.wf = true) : (m.write a b).wf = true := by
  obtain ⟨hp, hn⟩ := (wf_iff m).mp h
  refine (wf_iff _).mpr ⟨?_, ?_⟩
  · unfold Memory.write
    split
    · exact hp.filter _
    · refine pairwise_insertCell _ _ (fun d hd => ?_) (hp.filter _)
      simpa using (List.mem_filter.mp hd).2
  · unfold Memory.write
    split
    · exact fun c hc => hn c (List.mem_filter.mp hc).1
    · rename_i hb
      intro c hc
      rcases (mem_insertCell _ _ _).mp hc with rfl | hc
      · exact hb
      · exact hn c (List.mem_filter.mp hc).1

/-- Every word store keeps the canonical form. -/
theorem wf_writeWord (m : Memory) (a : Nat) (v : Word) (h : m.wf = true) : (m.writeWord a v).wf = true :=
  wf_write _ _ _ (wf_write _ _ _ (wf_write _ _ _ (wf_write _ _ _ h)))

/-- A word stored inside a capacity leaves every cell inside it. -/
theorem inside_writeWord (m : Memory) (a n : Nat) (v : Word) (ha : a + 3 < n) (h : ∀ c ∈ m, c.1 < n) :
    ∀ c ∈ m.writeWord a v, c.1 < n := by
  intro c hc
  unfold Memory.writeWord at hc
  rcases mem_write _ _ _ _ hc with rfl | hc
  · exact ha
  rcases mem_write _ _ _ _ hc with rfl | hc
  · exact (by omega : a + 2 < n)
  rcases mem_write _ _ _ _ hc with rfl | hc
  · exact (by omega : a + 1 < n)
  rcases mem_write _ _ _ _ hc with rfl | hc
  · exact (by omega : a < n)
  · exact h c hc

/-- Canonical memories that read alike are equal: the form leaves one list for one memory. -/
theorem memory_ext (m n : Memory) (hm : m.wf = true) (hn : n.wf = true) (h : ∀ a, m.read a = n.read a) : m = n := by
  have low : ∀ (m : Memory) (a : Nat), (∀ c ∈ m, a < c.1) → m.read a = Memory.unlisted := by
    intro m a hlow
    induction m with
    | nil => rfl
    | cons d m ih =>
      have := hlow d (by simp)
      rw [Memory.read, if_neg (by omega)]
      exact ih (fun c hc => hlow c (by simp [hc]))
  induction m generalizing n with
  | nil =>
    cases n with
    | nil => rfl
    | cons d n =>
      have := h d.1
      have hd := ((wf_iff _).mp hn).2 d (by simp)
      simp only [Memory.read, if_true] at this
      exact absurd this.symm hd
  | cons c m ih =>
    obtain ⟨hmp, hmn⟩ := (wf_iff _).mp hm
    rw [List.pairwise_cons] at hmp
    cases n with
    | nil =>
      have := h c.1
      simp only [Memory.read, if_true] at this
      exact absurd this (hmn c (by simp))
    | cons d n =>
      obtain ⟨hnp, hnn⟩ := (wf_iff _).mp hn
      rw [List.pairwise_cons] at hnp
      have key : c.1 = d.1 := by
        rcases lt_trichotomy c.1 d.1 with hlt | heq | hlt
        · have := h c.1
          rw [low (d :: n) c.1 (by
            intro e he
            rcases List.mem_cons.mp he with rfl | he
            · exact hlt
            · exact lt_trans hlt (hnp.1 e he))] at this
          simp only [Memory.read, if_true] at this
          exact absurd this (hmn c (by simp))
        · exact heq
        · have := h d.1
          rw [low (c :: m) d.1 (by
            intro e he
            rcases List.mem_cons.mp he with rfl | he
            · exact hlt
            · exact lt_trans hlt (hmp.1 e he))] at this
          simp only [Memory.read, if_true] at this
          exact absurd this.symm (hnn d (by simp))
      have val : c.2 = d.2 := by simpa [Memory.read, key] using h c.1
      have cd : c = d := Prod.ext key val
      subst cd
      congr 1
      refine ih n ((wf_iff _).mpr ⟨hmp.2, fun e he => hmn e (by simp [he])⟩)
        ((wf_iff _).mpr ⟨hnp.2, fun e he => hnn e (by simp [he])⟩) (fun a => ?_)
      by_cases ha : c.1 = a
      · subst ha; rw [low m _ hmp.1, low n _ hnp.1]
      · simpa [Memory.read, ha] using h a

/-! ## The touched map -/

@[simp] theorem mem_touch (a b : Nat) (t : List Nat) : b ∈ touch a t ↔ b = a ∨ b ∈ t := by
  induction t with
  | nil => simp [touch]
  | cons c t ih => unfold touch; split <;> [skip; split] <;> simp_all; tauto

theorem pairwise_touch (a : Nat) (t : List Nat) (h : List.Pairwise (fun a b : Nat => a < b) t) :
    List.Pairwise (fun a b : Nat => a < b) (touch a t) := by
  induction t with
  | nil => simp [touch]
  | cons c t ih =>
    obtain ⟨hc, ht⟩ := List.pairwise_cons.mp h
    unfold touch
    split
    · rename_i hlt
      refine List.pairwise_cons.mpr ⟨fun d hd => ?_, h⟩
      rcases List.mem_cons.mp hd with rfl | hd
      · exact hlt
      · exact lt_trans hlt (hc d hd)
    · split
      · exact h
      · refine List.pairwise_cons.mpr ⟨fun d hd => ?_, ih ht⟩
        rcases (mem_touch a d t).mp hd with rfl | hd
        · omega
        · exact hc d hd

/-- A store marks its four bytes and unmarks none. -/
theorem mem_touchWord (t : List Nat) (a b : Nat) : b ∈ touchWord t a ↔ (a ≤ b ∧ b < a + 4) ∨ b ∈ t := by
  simp only [touchWord, mem_touch]
  constructor
  · rintro (h | h | h | h | h) <;> first | (left; omega) | exact Or.inr h
  · rintro (h | h)
    · have : b = a ∨ b = a + 1 ∨ b = a + 2 ∨ b = a + 3 := by omega
      tauto
    · tauto

theorem pairwise_touchWord (t : List Nat) (a : Nat) (h : List.Pairwise (fun a b : Nat => a < b) t) :
    List.Pairwise (fun a b : Nat => a < b) (touchWord t a) :=
  pairwise_touch _ _ (pairwise_touch _ _ (pairwise_touch _ _ (pairwise_touch _ _ h)))

end Machine

end Sys2Proof
end

