-- ==== Sys2Proof/Laws/State.lean ====
section
/-! SUPPORT. One lemma per field and update of State, so that no later proof unfolds a record update. -/

namespace Sys2Proof.Machine

/-! ## writeReg changes `x` alone -/

@[simp] theorem writeReg_params (s : State) (i : Reg) (v : Word) : (s.writeReg i v).params = s.params := by
  unfold State.writeReg; split <;> rfl
@[simp] theorem writeReg_pc (s : State) (i : Reg) (v : Word) : (s.writeReg i v).pc = s.pc := by
  unfold State.writeReg; split <;> rfl
@[simp] theorem writeReg_clock (s : State) (i : Reg) (v : Word) : (s.writeReg i v).clock = s.clock := by
  unfold State.writeReg; split <;> rfl
@[simp] theorem writeReg_run (s : State) (i : Reg) (v : Word) : (s.writeReg i v).run = s.run := by
  unfold State.writeReg; split <;> rfl
@[simp] theorem writeReg_imem (s : State) (i : Reg) (v : Word) : (s.writeReg i v).imem = s.imem := by
  unfold State.writeReg; split <;> rfl
@[simp] theorem writeReg_dmem (s : State) (i : Reg) (v : Word) : (s.writeReg i v).dmem = s.dmem := by
  unfold State.writeReg; split <;> rfl
@[simp] theorem writeReg_touched (s : State) (i : Reg) (v : Word) : (s.writeReg i v).touched = s.touched := by
  unfold State.writeReg; split <;> rfl

/-- A register reads what was written last, and `x[0]` is never written (`10_state.md` R23). -/
theorem readReg_writeReg (s : State) (i j : Reg) (v : Word) :
    (s.writeReg i v).readReg j = if j = i ∧ i ≠ 0 then v else s.readReg j := by
  unfold State.readReg State.writeReg
  split
  · simp_all
  · simp only [Vector.getElem_set, BitVec.toNat_inj]
    grind

@[simp] theorem writeReg_zero (s : State) (v : Word) : s.writeReg 0#5 v = s := by
  simp [State.writeReg]

@[simp] theorem readReg_zero_writeReg (s : State) (i : Reg) (v : Word) :
    (s.writeReg i v).readReg 0#5 = s.readReg 0#5 := by
  rw [readReg_writeReg]; grind

/-! ## advanceTo changes `pc` and `clock` -/

@[simp] theorem advanceTo_params (s : State) (t : Word) : (s.advanceTo t).params = s.params := rfl
@[simp] theorem advanceTo_x (s : State) (t : Word) : (s.advanceTo t).x = s.x := rfl
@[simp] theorem advanceTo_pc (s : State) (t : Word) : (s.advanceTo t).pc = t := rfl
@[simp] theorem advanceTo_clock (s : State) (t : Word) : (s.advanceTo t).clock = s.clock + 1 := rfl
@[simp] theorem advanceTo_run (s : State) (t : Word) : (s.advanceTo t).run = s.run := rfl
@[simp] theorem advanceTo_imem (s : State) (t : Word) : (s.advanceTo t).imem = s.imem := rfl
@[simp] theorem advanceTo_dmem (s : State) (t : Word) : (s.advanceTo t).dmem = s.dmem := rfl
@[simp] theorem advanceTo_touched (s : State) (t : Word) : (s.advanceTo t).touched = s.touched := rfl
@[simp] theorem readReg_advanceTo (s : State) (t : Word) (r : Reg) :
    (s.advanceTo t).readReg r = s.readReg r := rfl

/-! ## storeWord changes `dmem` and `touched` -/

@[simp] theorem storeWord_params (s : State) (a : Nat) (v : Word) : (s.storeWord a v).params = s.params := rfl
@[simp] theorem storeWord_x (s : State) (a : Nat) (v : Word) : (s.storeWord a v).x = s.x := rfl
@[simp] theorem storeWord_pc (s : State) (a : Nat) (v : Word) : (s.storeWord a v).pc = s.pc := rfl
@[simp] theorem storeWord_clock (s : State) (a : Nat) (v : Word) : (s.storeWord a v).clock = s.clock := rfl
@[simp] theorem storeWord_run (s : State) (a : Nat) (v : Word) : (s.storeWord a v).run = s.run := rfl
@[simp] theorem storeWord_imem (s : State) (a : Nat) (v : Word) : (s.storeWord a v).imem = s.imem := rfl
@[simp] theorem storeWord_dmem (s : State) (a : Nat) (v : Word) :
    (s.storeWord a v).dmem = s.dmem.writeWord a v := rfl
@[simp] theorem storeWord_touched (s : State) (a : Nat) (v : Word) :
    (s.storeWord a v).touched = touchWord s.touched a := rfl
@[simp] theorem readReg_storeWord (s : State) (a : Nat) (v : Word) (r : Reg) :
    (s.storeWord a v).readReg r = s.readReg r := rfl

/-! ## A change of `run` alone -/

@[simp] theorem readReg_withRun (s : State) (m : RunState) (r : Reg) :
    State.readReg { s with run := m } r = s.readReg r := rfl
@[simp] theorem halt_run (s : State) : s.halt.run = .halted := rfl
@[simp] theorem halt_params (s : State) : s.halt.params = s.params := rfl
@[simp] theorem halt_x (s : State) : s.halt.x = s.x := rfl
@[simp] theorem halt_pc (s : State) : s.halt.pc = s.pc := rfl
@[simp] theorem halt_clock (s : State) : s.halt.clock = s.clock := rfl
@[simp] theorem halt_imem (s : State) : s.halt.imem = s.imem := rfl
@[simp] theorem halt_dmem (s : State) : s.halt.dmem = s.dmem := rfl
@[simp] theorem halt_touched (s : State) : s.halt.touched = s.touched := rfl
@[simp] theorem readReg_halt (s : State) (r : Reg) : s.halt.readReg r = s.readReg r := rfl

/-! ## Reset -/

@[simp] theorem readReg_reset (r : Reg) : State.reset.readReg r = 0 := by
  simp [State.readReg, State.reset]

end Sys2Proof.Machine
end

