-- ==== Sys2Proof/Laws/Ops.lean ====
section
/-! SUPPORT. One lemma for each shared operation, which says once everything it can do. -/

namespace Sys2Proof.Machine

/-- A fault changes `run` and nothing else. -/
theorem raise_next (f : Fault) (s t : State) : raise f s = .next t ↔ t = { s with run := .aborted f } := by
  simp [raise, eq_comm]

/-- What a retiring cycle leaves. -/
theorem retire_next (rd : Reg) (v target : Word) (s t : State) :
    retire rd v target s = .next t ↔ t = (s.writeReg rd v).advanceTo target := by
  simp [retire, eq_comm]

/-- An aligned address has a multiple of 4 as its number. -/
theorem wordAligned_iff (a : Word) : wordAligned a = true ↔ a.toNat % 4 = 0 := by
  simp only [wordAligned, beq_iff_eq, BitVec.toNat_eq, BitVec.extractLsb'_toNat, Nat.shiftRight_zero]
  simp

theorem insideMemory_iff (n : Nat) (a : Word) : insideMemory n a = true ↔ a.toNat + 3 < n := by
  simp [insideMemory]

/-- The three ways a fetch ends (`20_memory.md` R54). -/
theorem ifetch_cases (s : State) :
    (s.pc.toNat % 4 ≠ 0 ∧ s.ifetch = .error (.fetchMisaligned s.pc)) ∨
    (s.pc.toNat % 4 = 0 ∧ Config.imemSize ≤ s.pc.toNat + 3 ∧ s.ifetch = .error (.fetchOutOfRange s.pc)) ∨
    (s.pc.toNat % 4 = 0 ∧ s.pc.toNat + 3 < Config.imemSize ∧ s.ifetch = .ok (s.imem.readWord s.pc.toNat)) := by
  unfold State.ifetch
  have ha := wordAligned_iff s.pc
  have hi := insideMemory_iff Config.imemSize s.pc
  grind

/-- The three ways a load ends (`20_memory.md` R57). -/
theorem memRead_cases (s : State) (a : Word) :
    (a.toNat % 4 ≠ 0 ∧ s.memRead a = .error (.dataMisaligned a)) ∨
    (a.toNat % 4 = 0 ∧ s.params.dmemSize ≤ a.toNat + 3 ∧ s.memRead a = .error (.dataOutOfRange a)) ∨
    (a.toNat % 4 = 0 ∧ a.toNat + 3 < s.params.dmemSize ∧ s.memRead a = .ok (s.dmem.readWord a.toNat)) := by
  unfold State.memRead
  have ha := wordAligned_iff a
  have hi := insideMemory_iff s.params.dmemSize a
  grind

/-- The three ways a store ends (`20_memory.md` R58). -/
theorem memWrite_cases (s : State) (a v : Word) :
    (a.toNat % 4 ≠ 0 ∧ s.memWrite a v = .error (.dataMisaligned a)) ∨
    (a.toNat % 4 = 0 ∧ s.params.dmemSize ≤ a.toNat + 3 ∧ s.memWrite a v = .error (.dataOutOfRange a)) ∨
    (a.toNat % 4 = 0 ∧ a.toNat + 3 < s.params.dmemSize ∧ s.memWrite a v = .ok (s.storeWord a.toNat v)) := by
  unfold State.memWrite
  have ha := wordAligned_iff a
  have hi := insideMemory_iff s.params.dmemSize a
  grind

/-- Fetch and decode where the fetch succeeds. -/
theorem fetchInstr_of_ifetch (s : State) (w : Word) (h : s.ifetch = .ok w) :
    s.fetchInstr = match decode w with
      | .error e => .error (faultOfDecodeError s.pc w e)
      | .ok i => .ok i := by
  cases hd : decode w <;> simp only [State.fetchInstr, h, hd]

/-- Fetch and decode where the fetch faults. -/
theorem fetchInstr_of_fault (s : State) (f : Fault) (h : s.ifetch = .error f) : s.fetchInstr = .error f := by
  unfold State.fetchInstr; rw [h]

/-- A step of a running core, in its three cases (`40_execute_cycle.md` R139). -/
theorem step_running (s : State) (h : s.run = .running) :
    step s = if s.haltRequested then .next s.halt
      else match s.fetchInstr with
        | .error f => raise f s
        | .ok i => exec i s := by
  cases hf : s.fetchInstr <;> simp only [step, h, hf]

/-- A terminal state stays (`10_state.md` R33). -/
theorem step_ended (s : State) (h : s.run ≠ .running) : step s = .next s := by
  unfold step; split <;> simp_all

end Sys2Proof.Machine
end

