-- ==== Sys2Proof/Laws/Exec.lean ====
section
/-! SUPPORT. What an instruction and a step can do, said once: every invariant and every frame follows from these. -/

namespace Sys2Proof.Machine

/-- A word placed where the next step fetches is the word the next step fetches. -/
theorem placeAtPc_fetchesWord (s : State) (w : Word) (hf : s.Fetches) (ha : s.pc.toNat % 4 = 0)
    (hi : s.pc.toNat + 3 < Config.imemSize) : (s.placeAtPc w).FetchesWord w := by
  have e : s.placeAtPc w = { s with imem := s.imem.writeWord s.pc.toNat w } := by
    unfold State.placeAtPc
    rw [(wordAligned_iff _).mpr ha, (insideMemory_iff _ _).mpr hi]
    rfl
  rw [e]
  refine ⟨⟨hf.running, hf.noSentinel⟩, ha, hi, ?_, ?_, ?_, ?_⟩ <;>
    · simp only [read_writeWord, byteOf]
      rw [if_pos (by omega)]
      simp

/-- An unexamined funct3 is refused only under `STRICT_FUNCT3 = true`, and then where it is not the canonical one. -/
theorem funct3Accepted_iff (strict : Bool) (c f3 : BitVec 3) :
    funct3Accepted strict c f3 = true ↔ strict = false ∨ f3 = c := by
  simp [funct3Accepted]

/-- LW with an accepted funct3. -/
theorem execLw_accepted (rd rs1 : Reg) (imm : BitVec 12) (f3 : BitVec 3) (s : State)
    (h : s.params.strictFunct3 = false ∨ f3 = 2#3) :
    execLw rd rs1 imm f3 s = match s.memRead (s.basePlus rs1 imm) with
      | .error f => raise f s
      | .ok v => retire rd v s.pcPlus4 s := by
  unfold execLw; exact (if_pos ((funct3Accepted_iff _ canonicalWordFunct3 _).mpr h)).trans (by cases s.memRead _ <;> rfl)

/-- SW with an accepted funct3. -/
theorem execSw_accepted (rs2 rs1 : Reg) (imm : BitVec 12) (f3 : BitVec 3) (s : State)
    (h : s.params.strictFunct3 = false ∨ f3 = 2#3) :
    execSw rs2 rs1 imm f3 s = match s.memWrite (s.basePlus rs1 imm) (s.readReg rs2) with
      | .error f => raise f s
      | .ok t => .next (t.advanceTo s.pcPlus4) := by
  unfold execSw; exact (if_pos ((funct3Accepted_iff _ canonicalWordFunct3 _).mpr h)).trans (by cases s.memWrite _ _ <;> rfl)

/-- JALR with an accepted funct3. -/
theorem execJalr_accepted (rd rs1 : Reg) (imm : BitVec 12) (f3 : BitVec 3) (s : State)
    (h : s.params.strictFunct3 = false ∨ f3 = 0#3) :
    execJalr rd rs1 imm f3 s = retire rd s.pcPlus4 (s.basePlus rs1 imm) s := by
  unfold execJalr; rw [if_pos ((funct3Accepted_iff _ canonicalJalrFunct3 _).mpr h)]

/-- The whole effect of a cycle that writes one register and goes on. -/
theorem retire_resultIs (rd : Reg) (v target : Word) (s : State) :
    ∃ t : State, retire rd v target s = .next t ∧ ResultIs s t rd v target := by
  refine ⟨_, rfl, ⟨by simp, by simp, by simp, by simp, by simp⟩, ?_, ⟨by simp, by simp⟩⟩
  intro r; simp [readReg_writeReg]; grind

/-- The four ways an instruction that answers a next state ends: it writes its destination and goes on, it only goes
on, it stores a word and goes on, or it aborts. -/
inductive Effect (i : Instr) (s : State) : State → Prop where
  | result (rd : Reg) (v target : Word) (hd : i.destination = some rd) :
      Effect i s ((s.writeReg rd v).advanceTo target)
  | goes (target : Word) (hd : i.destination = none) (hm : i.accessesData = false) : Effect i s (s.advanceTo target)
  | stores (a v : Word) (hd : i.destination = none) (hm : i.accessesData = true) (aligned : a.toNat % 4 = 0)
      (inside : a.toNat + 3 < s.params.dmemSize) : Effect i s ((s.storeWord a.toNat v).advanceTo s.pcPlus4)
  | aborts (f : Fault) (hm : i.accessesData = true) : Effect i s { s with run := .aborted f }

/-- A division that answers a next state retired with a result. -/
theorem retireDivision_next (rd : Reg) (res : Except Refusal Word) (s t : State)
    (h : retireDivision rd res s = .next t) :
    ∃ v : Word, res = .ok v ∧ t = (s.writeReg rd v).advanceTo s.pcPlus4 := by
  cases res with
  | error r => simp [retireDivision] at h
  | ok v => exact ⟨v, rfl, (retire_next _ _ _ _ _).mp h⟩

/-- A load that answers a next state wrote its register or aborted. -/
theorem execLw_effect (rd rs1 : Reg) (imm : BitVec 12) (f3 : BitVec 3) (s t : State)
    (h : execLw rd rs1 imm f3 s = .next t) : Effect (.lw rd rs1 imm f3) s t := by
  unfold execLw at h
  split at h
  · split at h
    · rw [(raise_next _ _ _).mp h]; exact .aborts _ rfl
    · rw [(retire_next _ _ _ _ _).mp h]; exact .result _ _ _ rfl
  · simp at h

/-- A store that answers a next state wrote an aligned word inside data memory or aborted. -/
theorem execSw_effect (rs2 rs1 : Reg) (imm : BitVec 12) (f3 : BitVec 3) (s t : State)
    (h : execSw rs2 rs1 imm f3 s = .next t) : Effect (.sw rs2 rs1 imm f3) s t := by
  unfold execSw at h
  split at h
  · rcases memWrite_cases s (s.basePlus rs1 imm) (s.readReg rs2) with ⟨_, hw⟩ | ⟨_, _, hw⟩ | ⟨ha, hi, hw⟩
    · rw [hw] at h; rw [(raise_next _ _ _).mp h]; exact .aborts _ rfl
    · rw [hw] at h; rw [(raise_next _ _ _).mp h]; exact .aborts _ rfl
    · rw [hw] at h
      obtain rfl : t = _ := (Host.Outcome.next.inj h).symm
      exact .stores _ _ rfl rfl ha hi
  · simp at h

/-- Every instruction that answers a next state ends in one of the four ways. -/
theorem exec_effect (i : Instr) (s t : State) (h : exec i s = .next t) : Effect i s t := by
  cases i with
  | lw rd rs1 imm f3 => exact execLw_effect _ _ _ _ _ _ h
  | sw rs2 rs1 imm f3 => exact execSw_effect _ _ _ _ _ _ h
  | div rd rs1 rs2 => obtain ⟨v, -, rfl⟩ := retireDivision_next _ _ _ _ h; exact .result _ _ _ rfl
  | rem rd rs1 rs2 => obtain ⟨v, -, rfl⟩ := retireDivision_next _ _ _ _ h; exact .result _ _ _ rfl
  | jalr rd rs1 imm f3 =>
    simp only [exec, execJalr] at h
    split at h
    · rw [(retire_next _ _ _ _ _).mp h]; exact .result _ _ _ rfl
    · simp at h
  | beq rs1 rs2 off => rw [← Host.Outcome.next.inj h]; exact .goes _ rfl rfl
  | bne rs1 rs2 off => rw [← Host.Outcome.next.inj h]; exact .goes _ rfl rfl
  | blt rs1 rs2 off => rw [← Host.Outcome.next.inj h]; exact .goes _ rfl rfl
  | bge rs1 rs2 off => rw [← Host.Outcome.next.inj h]; exact .goes _ rfl rfl
  | bltu rs1 rs2 off => rw [← Host.Outcome.next.inj h]; exact .goes _ rfl rfl
  | bgeu rs1 rs2 off => rw [← Host.Outcome.next.inj h]; exact .goes _ rfl rfl
  | _ => rw [(retire_next _ _ _ _ _).mp h]; exact .result _ _ _ rfl

/-- The four ways a step that answers a next state goes. -/
inductive StepEffect (s : State) : State → Prop where
  | ended (h : s.run ≠ .running) : StepEffect s s
  | halts (h : s.run = .running) (sentinel : s.haltRequested = true) : StepEffect s s.halt
  | fetchFault (f : Fault) (h : s.run = .running) (noSentinel : s.haltRequested = false)
      (hf : s.fetchInstr = .error f) : StepEffect s { s with run := .aborted f }
  | executes (i : Instr) (t : State) (h : s.run = .running) (noSentinel : s.haltRequested = false)
      (hf : s.fetchInstr = .ok i) (he : exec i s = .next t) : StepEffect s t

/-- Every step that answers a next state goes in one of the four ways. -/
theorem step_effect (s t : State) (h : step s = .next t) : StepEffect s t := by
  by_cases hr : s.run = .running
  · rw [step_running s hr] at h
    cases hs : s.haltRequested with
    | true =>
      simp only [hs, if_true] at h
      rw [← Host.Outcome.next.inj h]; exact .halts hr hs
    | false =>
      simp only [hs, Bool.false_eq_true, if_false] at h
      cases hf : s.fetchInstr with
      | error f => rw [hf] at h; rw [(raise_next _ _ _).mp h]; exact .fetchFault f hr hs hf
      | ok i => rw [hf] at h; exact .executes i t hr hs hf h
  · rw [step_ended s hr] at h
    rw [← Host.Outcome.next.inj h]; exact .ended hr

end Sys2Proof.Machine
end

