-- ==== Sys2Proof/Laws/HostInterface.lean ====
section
/-! SUPPORT. The program loader (`70_reset_and_hazards.md` R264): how a text falls into lines, and what the loader makes
of each kind of line. -/

namespace Sys2Proof.Machine

/-! ## Lines -/

/-- The characters before the first newline are the first line. -/
theorem sourceLines_append (l rest : List Char) (h : '\n' ∉ l) :
    sourceLines (l ++ '\n' :: rest) = l :: sourceLines rest := by
  induction l with
  | nil => simp [sourceLines]
  | cons c cs ih =>
    simp only [List.mem_cons, not_or] at h
    rw [List.cons_append, sourceLines, if_neg (Ne.symm h.1), ih h.2]

/-- A text without a newline is one line. -/
theorem sourceLines_last (l : List Char) (h : '\n' ∉ l) (hne : l ≠ []) : sourceLines l = [l] := by
  induction l with
  | nil => exact absurd rfl hne
  | cons c cs ih =>
    simp only [List.mem_cons, not_or] at h
    rw [sourceLines, if_neg (Ne.symm h.1)]
    by_cases hc : cs = []
    · subst hc; rfl
    · rw [ih h.2 hc]

/-! ## Digits -/

/-- A character that is no digit leaves no value. -/
theorem binaryValue_none (l : List Char) (acc : Nat) (h : ∃ c ∈ l, c ≠ '0' ∧ c ≠ '1') : binaryValue acc l = none := by
  induction l generalizing acc with
  | nil => simp at h
  | cons c cs ih =>
    simp only [binaryValue]
    split
    · exact ih _ (by simp_all)
    · split
      · exact ih _ (by simp_all)
      · rfl

/-- Digits alone have a value. -/
theorem binaryValue_some (l : List Char) (acc : Nat) (h : ∀ c ∈ l, c = '0' ∨ c = '1') :
    ∃ v, binaryValue acc l = some v := by
  induction l generalizing acc with
  | nil => exact ⟨_, rfl⟩
  | cons c cs ih =>
    have ih := fun a => ih a (fun d hd => h d (by simp [hd]))
    rcases h c (by simp) with rfl | rfl <;> simpa [binaryValue] using ih _

/-- One more digit doubles the value and adds the digit. -/
theorem binaryValue_concat (l : List Char) (acc v : Nat) (b : Bool) (h : binaryValue acc l = some v) :
    binaryValue acc (l ++ [if b then '1' else '0']) = some (2 * v + b.toNat) := by
  induction l generalizing acc with
  | nil => cases b <;> simp_all [binaryValue]
  | cons d ds ih =>
    simp only [binaryValue, List.cons_append] at h ⊢
    split
    · rename_i hd; rw [if_pos hd] at h; exact ih _ h
    · rename_i hd
      rw [if_neg hd] at h
      split
      · rename_i hd; rw [if_pos hd] at h; exact ih _ h
      · rename_i hd; rw [if_neg hd] at h; simp at h

/-- The first `n` digits of a word have its top `n` bits as their value. -/
theorem binaryValue_take (w : Word) (n : Nat) (hn : n ≤ 32) :
    binaryValue 0 ((List.range n).map (fun k => if w.getLsbD (31 - k) then '1' else '0')) =
      some (w.toNat / 2 ^ (32 - n)) := by
  induction n with
  | zero => have := w.isLt; simp [binaryValue]; omega
  | succ n ih =>
    rw [List.range_succ, List.map_append, List.map_singleton, binaryValue_concat _ _ _ _ (ih (by omega))]
    have hdiv : w.toNat / 2 ^ (32 - n) = w.toNat / 2 ^ (31 - n) / 2 := by
      rw [Nat.div_div_eq_div_mul, ← Nat.pow_succ, show (31 - n).succ = 32 - n by omega]
    have hbit : w.getLsbD (31 - n) = decide (w.toNat / 2 ^ (31 - n) % 2 = 1) := by
      rw [BitVec.getLsbD, Nat.testBit_eq_decide_div_mod_eq]
    rw [hdiv, show 32 - (n + 1) = 31 - n by omega, hbit]
    by_cases hb : w.toNat / 2 ^ (31 - n) % 2 = 1 <;> simp [hb] <;> omega

/-- The 32 digits of a word have the word as their value. -/
theorem binaryValue_binaryOf (w : Word) : binaryValue 0 (binaryOf w) = some w.toNat := by
  simpa [binaryOf] using binaryValue_take w 32 (by omega)

theorem length_binaryOf (w : Word) : (binaryOf w).length = 32 := by simp [binaryOf]

theorem newline_notMem_binaryOf (w : Word) : '\n' ∉ binaryOf w := by
  intro h
  simp only [binaryOf, List.mem_map] at h
  obtain ⟨k, -, h⟩ := h
  split at h <;> simp at h

/-! ## What the loader makes of its first line -/

/-- A blank line only counts. -/
theorem parseLines_blank (n : Nat) (ls : List (List Char)) : parseLines n ([] :: ls) = parseLines (n + 1) ls := by
  rw [parseLines, if_pos rfl]

/-- A malformed line is `LoadError` of its number, whatever follows. -/
theorem parseLines_malformed (n : Nat) (l : List Char) (ls : List (List Char)) (h : Malformed l) :
    parseLines n (l :: ls) = .fault (.loadError n) := by
  rw [parseLines, if_neg (by rintro rfl; simp [Malformed] at h)]
  cases hb : binaryValue 0 l with
  | none => rfl
  | some v =>
    rcases h with h | h
    · rw [binaryValue_none _ _ h] at hb; simp at hb
    · simp only [if_pos h]

/-- A short line is refused with its number, whatever follows. -/
theorem parseLines_tooShort (n : Nat) (l : List Char) (ls : List (List Char)) (h : TooShort l) :
    parseLines n (l :: ls) = .refused (.shortProgramLine n) := by
  obtain ⟨v, hv⟩ := binaryValue_some l 0 h.2.1
  have hl := h.2.2
  rw [parseLines, if_neg h.1, hv]
  simp only [if_neg (show ¬ 32 < l.length by omega), if_pos hl]

/-- The line of a word puts the word before those of the rest; the next line has the next number. -/
theorem parseLines_binaryOf (n : Nat) (w : Word) (ls : List (List Char)) (ws : List Word)
    (h : parseLines (n + 1) ls = .next ws) : parseLines n (binaryOf w :: ls) = .next (w :: ws) := by
  have hl := length_binaryOf w
  rw [parseLines, if_neg (by intro h; simp [h] at hl), binaryValue_binaryOf]
  simp [hl, h]

/-- After the line of a word, a fault of the rest is the answer. -/
theorem parseLines_binaryOf_fault (n : Nat) (w : Word) (ls : List (List Char)) (f : Fault)
    (h : parseLines (n + 1) ls = .fault f) : parseLines n (binaryOf w :: ls) = .fault f := by
  have hl := length_binaryOf w
  rw [parseLines, if_neg (by intro h; simp [h] at hl), binaryValue_binaryOf]
  simp [hl, h]

/-- After the line of a word, a refusal of the rest is the answer. -/
theorem parseLines_binaryOf_refused (n : Nat) (w : Word) (ls : List (List Char)) (r : Refusal)
    (h : parseLines (n + 1) ls = .refused r) : parseLines n (binaryOf w :: ls) = .refused r := by
  have hl := length_binaryOf w
  rw [parseLines, if_neg (by intro h; simp [h] at hl), binaryValue_binaryOf]
  simp [hl, h]

end Sys2Proof.Machine
end

