-- ==== Sys2Proof/Laws/PerInstr.lean ====
section
/-! SUPPORT. Facts about every instruction as syntax, one lemma per constructor. -/

namespace Sys2Proof.Laws.TableRow

/-- The word of the instruction matches the instruction's own row of the opcode table (`30_encoding.md` R95). -/
def Statement (i : Instr) : Prop := encode i &&& rowMask i = rowMatch i

theorem add (rd rs1 rs2 : Reg) : Statement (.add rd rs1 rs2) := by
  simp [Statement, rowMask, rowMatch, mask_funct7, encode]
theorem sub (rd rs1 rs2 : Reg) : Statement (.sub rd rs1 rs2) := by
  simp [Statement, rowMask, rowMatch, mask_funct7, encode]
theorem sll (rd rs1 rs2 : Reg) : Statement (.sll rd rs1 rs2) := by
  simp [Statement, rowMask, rowMatch, mask_funct7, encode]
theorem xor (rd rs1 rs2 : Reg) : Statement (.xor rd rs1 rs2) := by
  simp [Statement, rowMask, rowMatch, mask_funct7, encode]
theorem srl (rd rs1 rs2 : Reg) : Statement (.srl rd rs1 rs2) := by
  simp [Statement, rowMask, rowMatch, mask_funct7, encode]
theorem or (rd rs1 rs2 : Reg) : Statement (.or rd rs1 rs2) := by
  simp [Statement, rowMask, rowMatch, mask_funct7, encode]
theorem and (rd rs1 rs2 : Reg) : Statement (.and rd rs1 rs2) := by
  simp [Statement, rowMask, rowMatch, mask_funct7, encode]
theorem mul (rd rs1 rs2 : Reg) : Statement (.mul rd rs1 rs2) := by
  simp [Statement, rowMask, rowMatch, mask_funct7, encode]
theorem div (rd rs1 rs2 : Reg) : Statement (.div rd rs1 rs2) := by
  simp [Statement, rowMask, rowMatch, mask_funct7, encode]
theorem rem (rd rs1 rs2 : Reg) : Statement (.rem rd rs1 rs2) := by
  simp [Statement, rowMask, rowMatch, mask_funct7, encode]
theorem addi (rd rs1 : Reg) (imm : BitVec 12) : Statement (.addi rd rs1 imm) := by
  simp [Statement, rowMask, rowMatch, mask_funct3, encode]
theorem slli (rd rs1 : Reg) (imm : BitVec 12) : Statement (.slli rd rs1 imm) := by
  simp [Statement, rowMask, rowMatch, mask_funct3, encode]
theorem xori (rd rs1 : Reg) (imm : BitVec 12) : Statement (.xori rd rs1 imm) := by
  simp [Statement, rowMask, rowMatch, mask_funct3, encode]
theorem srli (rd rs1 : Reg) (imm : BitVec 12) : Statement (.srli rd rs1 imm) := by
  simp [Statement, rowMask, rowMatch, mask_funct3, encode]
theorem ori (rd rs1 : Reg) (imm : BitVec 12) : Statement (.ori rd rs1 imm) := by
  simp [Statement, rowMask, rowMatch, mask_funct3, encode]
theorem andi (rd rs1 : Reg) (imm : BitVec 12) : Statement (.andi rd rs1 imm) := by
  simp [Statement, rowMask, rowMatch, mask_funct3, encode]
theorem lw (rd rs1 : Reg) (imm : BitVec 12) (f3 : BitVec 3) : Statement (.lw rd rs1 imm f3) := by
  simp [Statement, rowMask, rowMatch, mask_opcode, encode]
theorem sw (rs2 rs1 : Reg) (imm : BitVec 12) (f3 : BitVec 3) : Statement (.sw rs2 rs1 imm f3) := by
  simp [Statement, rowMask, rowMatch, mask_opcode, encode]
theorem beq (rs1 rs2 : Reg) (off : BitVec 13) : Statement (.beq rs1 rs2 off) := by
  simp [Statement, rowMask, rowMatch, mask_funct3, encode]
theorem bne (rs1 rs2 : Reg) (off : BitVec 13) : Statement (.bne rs1 rs2 off) := by
  simp [Statement, rowMask, rowMatch, mask_funct3, encode]
theorem blt (rs1 rs2 : Reg) (off : BitVec 13) : Statement (.blt rs1 rs2 off) := by
  simp [Statement, rowMask, rowMatch, mask_funct3, encode]
theorem bge (rs1 rs2 : Reg) (off : BitVec 13) : Statement (.bge rs1 rs2 off) := by
  simp [Statement, rowMask, rowMatch, mask_funct3, encode]
theorem bltu (rs1 rs2 : Reg) (off : BitVec 13) : Statement (.bltu rs1 rs2 off) := by
  simp [Statement, rowMask, rowMatch, mask_funct3, encode]
theorem bgeu (rs1 rs2 : Reg) (off : BitVec 13) : Statement (.bgeu rs1 rs2 off) := by
  simp [Statement, rowMask, rowMatch, mask_funct3, encode]
theorem jal (rd : Reg) (off : BitVec 21) : Statement (.jal rd off) := by
  simp [Statement, rowMask, rowMatch, mask_opcode, encode]
theorem jalr (rd rs1 : Reg) (imm : BitVec 12) (f3 : BitVec 3) : Statement (.jalr rd rs1 imm f3) := by
  simp [Statement, rowMask, rowMatch, mask_opcode, encode]
theorem lui (rd : Reg) (imm : BitVec 20) : Statement (.lui rd imm) := by
  simp [Statement, rowMask, rowMatch, mask_opcode, encode]
theorem auipc (rd : Reg) (imm : BitVec 20) : Statement (.auipc rd imm) := by
  simp [Statement, rowMask, rowMatch, mask_opcode, encode]

end Sys2Proof.Laws.TableRow
end

