-- ==== Sys2Proof/Tests/Slice0.lean ====
section
/-! SUPPORT. Tests whose expected results are the spec's own vectors (`95_test_vectors.md` sections 3 to 9, and the
examples of the instruction files), and, for every statement that has hypotheses, a theorem `witness_…` that shows a
concrete input which meets them all. -/

namespace Sys2Proof.Tests

open Sys2Proof Sys2Proof.Machine

/-! ## Helpers -/

/-- The state after reset with a program counter and register presets. -/
def start (pc : Word) (regs : List (Reg × Word)) : State :=
  regs.foldl (fun s p => s.writeReg p.1 p.2) { State.reset with pc := pc }

/-- The same with one word placed at the program counter. -/
def startAt (pc : Word) (w : Nat) (regs : List (Reg × Word)) : State := (start pc regs).withFetchWord 32 w

/-- What `f` sees in the next state; none for a fault or a refusal. -/
def seen {α β : Type} (f : α → β) (o : Host.Outcome α Fault Refusal) : Option β :=
  match o with
  | .next t => some (f t)
  | .fault _ => none
  | .refused _ => none

/-- The fault of an answer that is one. -/
def faultOf {α : Type} (o : Host.Outcome α Fault Refusal) : Option Fault :=
  match o with
  | .next _ => none
  | .fault f => some f
  | .refused _ => none

/-- The refusal of an answer that is one. -/
def refusalOf {α : Type} (o : Host.Outcome α Fault Refusal) : Option Refusal :=
  match o with
  | .next _ => none
  | .fault _ => none
  | .refused r => some r

/-- One step from `startAt`, seen through one register, the program counter and the clock. -/
def oneStep (pc : Word) (w : Nat) (regs : List (Reg × Word)) (r : Reg) : Option (Word × Word × Nat) :=
  seen (fun t => (t.readReg r, t.pc, t.clock)) (step (startAt pc w regs))

/-- One step from `startAt`, seen through how the run goes on, the program counter and the clock. -/
def runAfter (pc : Word) (w : Nat) (regs : List (Reg × Word)) : Option (RunState × Word × Nat) :=
  seen (fun t => (t.run, t.pc, t.clock)) (step (startAt pc w regs))


/-! ## WellFormed: an odd branch or JAL offset has no word (`30_encoding.md` R86, R88) -/

theorem test_odd_beq_is_ill_formed : (Instr.beq 1 2 9#13).wellFormed = false := by decide
theorem test_odd_bne_is_ill_formed : (Instr.bne 1 2 9#13).wellFormed = false := by decide
theorem test_odd_blt_is_ill_formed : (Instr.blt 1 2 9#13).wellFormed = false := by decide
theorem test_odd_bge_is_ill_formed : (Instr.bge 1 2 9#13).wellFormed = false := by decide
theorem test_odd_bltu_is_ill_formed : (Instr.bltu 1 2 9#13).wellFormed = false := by decide
theorem test_odd_bgeu_is_ill_formed : (Instr.bgeu 1 2 9#13).wellFormed = false := by decide
theorem test_odd_jal_is_ill_formed : (Instr.jal 1 17#21).wellFormed = false := by decide
theorem test_even_offsets_are_well_formed :
    (Instr.beq 1 2 0x1FFE#13).wellFormed = true ∧ (Instr.jal 1 0x1FFFFE#21).wellFormed = true := by decide

/-! ## Decoding: the words of `95_test_vectors.md` section 7, field by field from `30_encoding.md` R95, R106 -/

theorem test_decode_add : decodeTableWord 32 0x002081B3 = some (.add 3 1 2) := by decide
theorem test_decode_sub : decodeTableWord 32 0x407302B3 = some (.sub 5 6 7) := by decide
theorem test_decode_xor : decodeTableWord 32 0x00C5C533 = some (.xor 10 11 12) := by decide
theorem test_decode_or : decodeTableWord 32 0x00C5E533 = some (.or 10 11 12) := by decide
theorem test_decode_and : decodeTableWord 32 0x00C5F533 = some (.and 10 11 12) := by decide
theorem test_decode_sll : decodeTableWord 32 0x007312B3 = some (.sll 5 6 7) := by decide
theorem test_decode_srl : decodeTableWord 32 0x007352B3 = some (.srl 5 6 7) := by decide
theorem test_decode_mul : decodeTableWord 32 0x027302B3 = some (.mul 5 6 7) := by decide
theorem test_decode_div : decodeTableWord 32 0x027342B3 = some (.div 5 6 7) := by decide
theorem test_decode_rem : decodeTableWord 32 0x027362B3 = some (.rem 5 6 7) := by decide
theorem test_decode_addi : decodeTableWord 32 0xFFF30293 = some (.addi 5 6 0xFFF#12) := by decide
theorem test_decode_xori : decodeTableWord 32 0xFFF34293 = some (.xori 5 6 0xFFF#12) := by decide
theorem test_decode_ori : decodeTableWord 32 0x0F036293 = some (.ori 5 6 0x0F0#12) := by decide
theorem test_decode_andi : decodeTableWord 32 0x7FF37293 = some (.andi 5 6 0x7FF#12) := by decide
theorem test_decode_slli : decodeTableWord 32 0x00431293 = some (.slli 5 6 4#12) := by decide
theorem test_decode_srli : decodeTableWord 32 0x40435293 = some (.srli 5 6 0x404#12) := by decide
theorem test_decode_lw : decodeTableWord 32 0xFFC32283 = some (.lw 5 6 0xFFC#12 2#3) := by decide
theorem test_decode_sw : decodeTableWord 32 0xFE732C23 = some (.sw 7 6 0xFF8#12 2#3) := by decide
theorem test_decode_beq : decodeTableWord 32 0x00208463 = some (.beq 1 2 8#13) := by decide
theorem test_decode_bne : decodeTableWord 32 0xFE209EE3 = some (.bne 1 2 0x1FFC#13) := by decide
theorem test_decode_blt : decodeTableWord 32 0x0020C863 = some (.blt 1 2 16#13) := by decide
theorem test_decode_bge : decodeTableWord 32 0x0020D863 = some (.bge 1 2 16#13) := by decide
theorem test_decode_bltu : decodeTableWord 32 0x0020E863 = some (.bltu 1 2 16#13) := by decide
theorem test_decode_bgeu : decodeTableWord 32 0x0020F863 = some (.bgeu 1 2 16#13) := by decide
theorem test_decode_jal : decodeTableWord 32 0xFFDFF06F = some (.jal 0 0x1FFFFC#21) := by decide
theorem test_decode_jalr : decodeTableWord 32 0xFF8280E7 = some (.jalr 1 5 0xFF8#12 0#3) := by decide
theorem test_decode_lui : decodeTableWord 32 0x123452B7 = some (.lui 5 0x12345#20) := by decide
theorem test_decode_auipc : decodeTableWord 32 0xFFFFF297 = some (.auipc 5 0xFFFFF#20) := by decide
theorem test_decode_add_bit_by_bit :
    decode 0b0000000_00010_00001_000_00011_0110011#32 = .ok (.add 3 1 2) := by decide
theorem test_decode_sw_bit_by_bit :
    decode 0b1111111_00111_00110_010_11000_0100011#32 = .ok (.sw 7 6 0xFF8#12 2#3) := by decide
theorem test_decode_bne_bit_by_bit :
    decode 0b1_111111_00010_00001_001_1110_1_1100011#32 = .ok (.bne 1 2 0x1FFC#13) := by decide
theorem test_decode_jal_bit_by_bit :
    decode 0b0_0000001000_0_00000000_00001_1101111#32 = .ok (.jal 1 16#21) := by decide
theorem test_decode_load_funct3_000 : decode 0x00800103#32 = .ok (.lw 2 0 8#12 0#3) := by decide
theorem test_decode_zero_word : decode 0#32 = .error .illegalOpcode := by decide
theorem test_decode_ecall : decode 0x00000073#32 = .error .illegalOpcode := by decide
theorem test_decode_fence : decode 0x0000000F#32 = .error .illegalOpcode := by decide
theorem test_decode_ones : decode 0xFFFFFFFF#32 = .error .illegalOpcode := by decide
theorem test_decode_sra : decode 0x407352B3#32 = .error (.illegalAluOp 0x105#10) := by decide
theorem test_decode_funct_0x3FF : decode 0xFFF07FB3#32 = .error (.illegalAluOp 0x3FF#10) := by decide
theorem test_decode_short_row : decodeTableWord 8 0x33 = some (.add 0 0 0) := by decide
theorem test_encode_addi : encode (.addi 31 31 0xEEF#12) = 0xEEFF8F93#32 := by decide
theorem test_encode_lui : encode (.lui 31 0xDEADC#20) = 0xDEADCFB7#32 := by decide
theorem test_encode_bne : encode (.bne 1 0 0x1FF8#13) = 0xFE009CE3#32 := by decide

/-! ## Single steps (`95_test_vectors.md` section 7; the number is the row's) -/

theorem test_step_1_add :
    oneStep 0 0x002081B3 [(1, 5), (2, 7)] 3 = some (12, 4, 1) := by decide
theorem test_step_2_sub :
    oneStep 0 0x407302B3 [(6, 5), (7, 7)] 5 = some (0xFFFFFFFE, 4, 1) := by decide
theorem test_step_3_xor :
    oneStep 0 0x00C5C533 [(11, 0xF0F0F0F0), (12, 0x0FF00FF0)] 10 = some (0xFF00FF00, 4, 1) := by decide
theorem test_step_4_or :
    oneStep 0 0x00C5E533 [(11, 0xF0F0F0F0), (12, 0x0FF00FF0)] 10 = some (0xFFF0FFF0, 4, 1) := by decide
theorem test_step_5_and :
    oneStep 0 0x00C5F533 [(11, 0xF0F0F0F0), (12, 0x0FF00FF0)] 10 = some (0x00F000F0, 4, 1) := by decide
theorem test_step_6_sll :
    oneStep 0 0x007312B3 [(6, 5), (7, 7)] 5 = some (0x280, 4, 1) := by decide
theorem test_step_7_srl :
    oneStep 0 0x007352B3 [(6, 0xFFFFFFF9), (7, 2)] 5 = some (0x3FFFFFFE, 4, 1) := by decide
theorem test_step_8_mul :
    oneStep 0 0x027302B3 [(6, 0xFFFFFFF9), (7, 2)] 5 = some (0xFFFFFFF2, 4, 1) := by decide
theorem test_step_9_div :
    oneStep 0 0x027342B3 [(6, 0xFFFFFFF9), (7, 2)] 5 = some (0xFFFFFFFD, 4, 1) := by decide
theorem test_step_10_rem :
    oneStep 0 0x027362B3 [(6, 0xFFFFFFF9), (7, 2)] 5 = some (0xFFFFFFFF, 4, 1) := by decide
theorem test_step_11_div_by_zero :
    oneStep 0 0x027342B3 [(6, 9), (7, 0)] 5 = some (0xFFFFFFFF, 4, 1) := by decide
theorem test_step_12_rem_by_zero :
    oneStep 0 0x027362B3 [(6, 9), (7, 0)] 5 = some (9, 4, 1) := by decide
theorem test_step_13_addi :
    oneStep 0 0x00500093 [] 1 = some (5, 4, 1) := by decide
theorem test_step_14_addi_negative :
    oneStep 0 0xFFF30293 [(6, 0)] 5 = some (0xFFFFFFFF, 4, 1) := by decide
theorem test_step_15_xori :
    oneStep 0 0xFFF34293 [(6, 0x12345678)] 5 = some (0xEDCBA987, 4, 1) := by decide
theorem test_step_16_ori :
    oneStep 0 0x0F036293 [(6, 0x12345608)] 5 = some (0x123456F8, 4, 1) := by decide
theorem test_step_17_andi :
    oneStep 0 0x7FF37293 [(6, 0x12345678)] 5 = some (0x678, 4, 1) := by decide
theorem test_step_18_slli :
    oneStep 0 0x00431293 [(6, 0x12345678)] 5 = some (0x23456780, 4, 1) := by decide
theorem test_step_19_srli :
    oneStep 0 0x00435293 [(6, 0x12345678)] 5 = some (0x01234567, 4, 1) := by decide
theorem test_step_20_srli_srai_word :
    oneStep 0 0x40435293 [(6, 0x80000000)] 5 = some (0x08000000, 4, 1) := by decide
theorem test_step_21_addi_x0 :
    oneStep 0 0x00500013 [] 0 = some (0, 4, 1) := by decide
theorem test_step_27_beq_taken :
    oneStep 0 0x00208463 [(1, 3), (2, 3)] 0 = some (0, 8, 1) := by decide
theorem test_step_28_beq_not_taken :
    oneStep 0 0x00208463 [(1, 3), (2, 4)] 0 = some (0, 4, 1) := by decide
theorem test_step_29_bne :
    oneStep 12 0xFE209EE3 [(1, 1), (2, 0)] 0 = some (0, 8, 1) := by decide
theorem test_step_30_blt :
    oneStep 0 0x0020C863 [(1, 0xFFFFFFFF), (2, 1)] 0 = some (0, 16, 1) := by decide
theorem test_step_31_bltu :
    oneStep 0 0x0020E863 [(1, 0xFFFFFFFF), (2, 1)] 0 = some (0, 4, 1) := by decide
theorem test_step_32_bge :
    oneStep 0 0x0020D863 [(1, 5), (2, 5)] 0 = some (0, 16, 1) := by decide
theorem test_step_33_bgeu :
    oneStep 0 0x0020F863 [(1, 0), (2, 1)] 0 = some (0, 4, 1) := by decide
theorem test_step_34_jal :
    oneStep 8 0x010000EF [] 1 = some (12, 24, 1) := by decide
theorem test_step_35_jal_x0 :
    oneStep 8 0xFFDFF06F [] 0 = some (0, 4, 1) := by decide
theorem test_step_36_jalr :
    oneStep 40 0xFF8280E7 [(5, 24)] 1 = some (44, 16, 1) := by decide
theorem test_step_37_jalr_same_register :
    oneStep 40 0x000080E7 [(1, 24)] 1 = some (44, 24, 1) := by decide
theorem test_step_38_jalr_keeps_bit_1 :
    oneStep 0 0x00200067 [] 0 = some (0, 2, 1) := by decide
theorem test_step_39_lui :
    oneStep 0 0x123452B7 [(5, 0xFFFFFFFF)] 5 = some (0x12345000, 4, 1) := by decide
theorem test_step_40_auipc :
    oneStep 8 0x00001297 [] 5 = some (0x1008, 12, 1) := by decide
theorem test_step_41_auipc_wraps :
    oneStep 8 0xFFFFF297 [] 5 = some (0xFFFFF008, 12, 1) := by decide
theorem test_step_42_addi_x31 :
    oneStep 0 0xEEFF8F93 [(31, 0xDEADC000)] 31 = some (0xDEADBEEF, 4, 1) := by decide

/-- The state of rows 23 to 26: four bytes at `a` and one word at the program counter. -/
def startData (w : Nat) (regs : List (Reg × Word)) (a : Nat) (v : Word) : State :=
  { startAt 0 w regs with dmem := Memory.writeWord [] a v }

theorem test_step_22_sw :
    seen (fun t => (t.dmem, t.touched, t.pc)) (step (startAt 0 0x06602223 [(6, 42)])) =
      some ([(100, 0x2A)], [100, 101, 102, 103], 4) := by decide
theorem test_step_23_lw :
    seen (fun t => (t.readReg 5, t.pc)) (step (startData 0x06402283 [] 100 42)) = some (42, 4) := by decide
theorem test_step_25_lw_negative :
    seen (fun t => t.readReg 5) (step (startData 0xFFC32283 [(6, 104)] 100 0x12345678)) = some 0x12345678 := by decide
theorem test_step_26_load_funct3_000 :
    seen (fun t => t.readReg 2) (step (startData 0x00800103 [] 8 0xFFFFFFFF)) = some 0xFFFFFFFF := by decide
theorem test_sw_of_zero_marks :
    seen (fun t => (t.dmem, t.touched)) (step (startAt 0 0x06002223 [])) =
      some ([], [100, 101, 102, 103]) := by decide

/-! ## Faults and the halt (`95_test_vectors.md` section 8) -/

theorem test_F1_fetch_misaligned :
    runAfter 2 0 [] = some (.aborted (.fetchMisaligned 2), 2, 0) := by decide
theorem test_F2_alignment_before_bounds :
    runAfter 0xFFFFFFFE 0 [] = some (.aborted (.fetchMisaligned 0xFFFFFFFE), 0xFFFFFFFE, 0) := by decide
theorem test_F3_fetch_out_of_range :
    runAfter 0x8000 0 [] = some (.aborted (.fetchOutOfRange 0x8000), 0x8000, 0) := by decide
theorem test_F4_zero_word : runAfter 0 0 [] = some (.aborted (.illegalOpcode 0 0), 0, 0) := by decide
theorem test_F5_ecall : runAfter 0 0x73 [] = some (.aborted (.illegalOpcode 0 0x73), 0, 0) := by decide
theorem test_F6_sra :
    runAfter 0 0x407352B3 [] = some (.aborted (.illegalAluOp 0 0x105), 0, 0) := by decide
theorem test_F7_slti :
    runAfter 0 0x00032293 [] = some (.aborted (.illegalAluOp 0 0x002), 0, 0) := by decide
theorem test_F8_branch_funct3_010 :
    runAfter 0 0x0020A463 [] = some (.aborted (.illegalBranchCond 0 2), 0, 0) := by decide
theorem test_F9_sw_misaligned :
    seen (fun t => (t.run, t.dmem, t.touched)) (step (startAt 0 0x0010A023 [(1, 102)])) =
      some (.aborted (.dataMisaligned 102), [], []) := by decide
theorem test_F10_lw_x0_misaligned :
    runAfter 0 0x0000A003 [(1, 2)] = some (.aborted (.dataMisaligned 2), 0, 0) := by decide
theorem test_F11_lw_out_of_range :
    runAfter 0 0xFFC02083 [] = some (.aborted (.dataOutOfRange 0xFFFFFFFC), 0, 0) := by decide
theorem test_F12_sw_out_of_range :
    runAfter 0 0x0010A023 [(1, 0x8000)] = some (.aborted (.dataOutOfRange 0x8000), 0, 0) := by decide
theorem test_F13_halt_before_the_fetch :
    runAfter 2 0 [(31, 0xDEADBEEF)] = some (.halted, 2, 0) := by decide
theorem test_halted_stays :
    seen (fun t => (t.run, t.pc, t.clock)) (step { start 0 [] with run := .halted }) = some (.halted, 0, 0) := by decide

/-! ## The ALU, the branch unit and the decoder's bundles (`95_test_vectors.md` sections 4 to 6) -/

theorem test_alu_shift_by_33 :
    aluSll .low5 0x80000001 0x21 = 2 ∧ aluSrl .low5 0x80000001 0x21 = 0x40000000 := by decide
theorem test_alu_shift_by_33_full : aluSll .full 0x80000001 0x21 = 0 ∧ aluSrl .full 0x80000001 0x1F = 1 := by decide
theorem test_alu_mul : aluMul 0xF0F0F0F0 0x0FF00FF0 = 0xF0FFF100 := by decide
theorem test_alu_div_negative : divValue 7 0xFFFFFFFE = 0xFFFFFFFD ∧ remValue 7 0xFFFFFFFE = 1 := by decide
theorem test_alu_div_overflow : divValue 0x80000000 0xFFFFFFFF = 0x80000000 ∧ remValue 0x80000000 0xFFFFFFFF = 0 := by
  decide
theorem test_alu_div_31 : divValue 0x80000001 0x1F = 0xFBDEF7BE ∧ remValue 0x80000001 0x1F = 0xFFFFFFFF := by decide
theorem test_alu_illegal_code :
    aluOp Config.defaults 0 0x009#10 1 2 = .error (.fault (.illegalAluOp 0 0x009#10)) := by decide
theorem test_branch_signs :
    branchTaken 4#3 0x80000000 0x7FFFFFFF = some true ∧ branchTaken 6#3 0x80000000 0x7FFFFFFF = some false := by decide

/-- The register file of `95_test_vectors.md` section 4. -/
def bundleStart : State := start 0 [(1, 0x11), (2, 0x22), (6, 0x66), (7, 0x77)]

theorem test_bundle_sub :
    decodeStage 0x407302B3 bundleStart =
      .ok (⟨0x33, 0x100, 0x66, 0x77, 5, 0⟩, ⟨.alu, false, false, false, false⟩) := by decide
theorem test_bundle_srli :
    decodeStage 0x40435293 bundleStart =
      .ok (⟨0x13, 0x005, 0x66, 0, 5, 0x404⟩, ⟨.alu, false, false, true, false⟩) := by decide
theorem test_bundle_lw :
    decodeStage 0x06402283 bundleStart = .ok (⟨0x03, 0x002, 0, 0, 5, 100⟩, ⟨.mem, false, false, true, false⟩) := by
  decide
theorem test_bundle_jalr :
    decodeStage 0xFF8280E7 bundleStart =
      .ok (⟨0x67, 0, 0, 0, 1, 0xFFFFFFF8⟩, ⟨.pcPlus4, true, false, true, false⟩) := by decide
theorem test_bundle_sw :
    decodeStage 0x06602223 bundleStart =
      .ok (⟨0x23, 0x002, 0, 0x66, 0, 100⟩, ⟨.none, false, false, true, false⟩) := by decide
theorem test_bundle_bltu :
    decodeStage 0x0020E863 bundleStart =
      .ok (⟨0x63, 0x006, 0x11, 0x22, 0, 16⟩, ⟨.none, false, true, true, true⟩) := by decide
theorem test_bundle_jal :
    decodeStage 0x010000EF bundleStart = .ok (⟨0x6F, 0, 0, 0, 1, 16⟩, ⟨.pcPlus4, true, true, true, false⟩) := by decide
theorem test_bundle_lui :
    decodeStage 0x123452B7 bundleStart =
      .ok (⟨0x37, 0, 0, 0, 5, 0x12345000⟩, ⟨.alu, false, false, true, false⟩) := by decide
theorem test_bundle_auipc :
    decodeStage 0x00001297 bundleStart = .ok (⟨0x17, 0, 0, 0, 5, 0x1000⟩, ⟨.alu, false, true, true, false⟩) := by decide

/-! ## The host's side (`30_encoding.md` R108, `60_exceptions.md` R252, `70_reset_and_hazards.md` R264, R266) -/

theorem test_source_line_of_add :
    sourceOf [some 0x002081B3] = "00000000001000001000000110110011\n".toList := by decide
theorem test_source_with_a_blank_line :
    seen (fun ws => ws)
      (parseLines 1 (sourceLines "00000000010100000000000010010011\n\n00000000001000001000000110110011".toList)) =
      some [0x00500093, 0x002081B3] := by decide
theorem test_source_not_binary : faultOf (parseLines 1 (sourceLines "\n01x\n".toList)) = some (.loadError 2) := by
  decide
theorem test_source_short_line : refusalOf (parseLines 1 (sourceLines "01\n".toList)) = some (.shortProgramLine 1) := by
  decide
theorem test_source_counts_every_line :
    faultOf (loadSource ("00000000010100000000000010010011\n\n0 1\n".toList) State.reset) = some (.loadError 3) := by
  decide
theorem test_load_is_little_endian :
    seen (fun t => t.imem) (loadImage [0x00500093] State.reset) = some [(0, 0x93), (2, 0x50)] := by decide
theorem test_preset_outside_data_memory :
    refusalOf (presetByte 32768 1 State.reset) = some (.presetOutsideDataMemory 32768) := by decide
theorem test_report :
    report { startData 0 [(31, 0xDEADBEEF)] 100 0x1234 with touched := [100, 101] } =
      { cycles := 0, pc := 0, registers := List.replicate 31 0 ++ [-559038737], memory := [(100, 0x34), (101, 0x12)] } := by
  decide

/-! ## Witnesses: concrete inputs that meet the hypotheses of the statements. Where a statement's only hypothesis is an
answer of `exec` or `step`, the witness is that answer. -/

/-- A state that is not the reset state: a store stands at `pc`, registers 1 and 6 and one word of data are set. -/
def example1 : State := { startData 0x06602223 [(1, 0x8000), (6, 42)] 100 7 with touched := [100, 101, 102, 103] }

theorem example1_inv : example1.Inv :=
  ⟨by decide, by decide, by decide, by decide, by decide, by decide, by decide⟩

/-- The word of a test's starting state is what its step fetches. -/
theorem startAt_fetchesWord (pc : Word) (w : Nat) (regs : List (Reg × Word)) (hf : (start pc regs).Fetches)
    (ha : (start pc regs).pc.toNat % 4 = 0) (hi : (start pc regs).pc.toNat + 3 < Config.imemSize) :
    (startAt pc w regs).FetchesWord (tableWord 32 w) := placeAtPc_fetchesWord _ _ hf ha hi

/-- `LoadedProgramIsFetched`: the longest program, its last word, and one word with addresses it does not cover. -/
theorem witness_LoadedProgramIsFetched :
    (∃ ws : List Word, ws.length ≤ 8192 ∧ 8191 < ws.length) ∧
    ([0x13#32] : List Word).length ≤ 8191 ∧ 8191 < 8192 :=
  ⟨⟨List.replicate 8192 0x13#32, by rw [List.length_replicate], by rw [List.length_replicate]; omega⟩, by decide, by omega⟩

/-- `ProgramSourceLoads`: a line with a wrong character, one with a carriage return, one with a digit too many; a short
line of one digit and one of 31. -/
theorem witness_ProgramSourceLoads :
    ('\n' ∉ ['0', '1', '2'] ∧ Malformed ['0', '1', '2']) ∧ ('\n' ∉ ['0', '\r'] ∧ Malformed ['0', '\r']) ∧
    ('\n' ∉ List.replicate 33 '0' ∧ Malformed (List.replicate 33 '0')) ∧
    TooShort ['1'] ∧ TooShort (List.replicate 31 '1') :=
  ⟨⟨by decide, .inl ⟨'2', by decide, by decide⟩⟩, ⟨by decide, .inl ⟨'\r', by decide, by decide⟩⟩,
    ⟨by simp, .inr (by simp)⟩, ⟨by simp, by simp, by simp⟩, ⟨by simp, by simp, by simp⟩⟩

/-- `LaunchKeepsTheInvariant`: a state that answers each launch action, one that refuses a preset, and one that is not
the reset state and has no data yet. -/
theorem witness_LaunchKeepsTheInvariant :
    example1.Inv ∧ (seen (fun t => t.imem) (loadImage [0x13] example1)).isSome = true ∧
    (seen (fun t => t.imem) (loadSource "00000000010100000000000010010011\n".toList example1)).isSome = true ∧
    (seen (fun t => t.x) (presetReg 31 1 example1)).isSome = true ∧
    (seen (fun t => t.pc) (presetPc 2 example1)).isSome = true ∧
    (seen (fun t => t.dmem) (presetByte 32767 1 example1)).isSome = true ∧ example1.params.dmemSize ≤ 32768 ∧
    (let s : State := { example1 with dmem := [], touched := [] }
     s.Inv ∧ s.dmem = [] ∧ s.touched = []) :=
  ⟨example1_inv, by decide, by decide, by decide, by decide, by decide, by decide,
    ⟨by decide, by decide, by decide, by decide, by decide, by decide, by decide⟩, rfl, rfl⟩

theorem witness_DecodeOfEncode :
    (Instr.bge 31 0 0x1000#13).wellFormed = true ∧ (Instr.jal 31 0x100000#21).wellFormed = true ∧
    (Instr.sw 31 0 0x800#12 7#3).wellFormed = true := by decide

theorem witness_EncodeOfDecode : decode 0xFE732C23#32 = .ok (.sw 7 6 0xFF8#12 2#3) := by decide

theorem witness_TableRowsDecideTheInstruction :
    0x407302B3#32 &&& rowMask (.sub 0 0 0) = rowMatch (.sub 0 0 0) ∧
    0xFFFFFF83#32 &&& rowMask (.lw 0 0 0 0) = rowMatch (.lw 0 0 0 0) := by decide

theorem witness_IllegalWordsAbort_opcode : (startAt 0 0 []).FetchesWord 0#32 ∧
    opcodeOf 0#32 ∉ [0x33#7, 0x13#7, 0x03#7, 0x67#7, 0x23#7, 0x63#7, 0x6F#7, 0x37#7, 0x17#7] :=
  ⟨startAt_fetchesWord 0 0 [] ⟨by decide, by decide⟩ (by decide) (by decide), by decide⟩
theorem witness_IllegalWordsAbort_op : (startAt 0x7FFC 0x407352B3 []).FetchesWord 0x407352B3#32 ∧
    opcodeOf 0x407352B3#32 = 0x33#7 ∧
    functOp 0x407352B3#32 ∉
      [0x000#10, 0x100#10, 0x001#10, 0x004#10, 0x005#10, 0x006#10, 0x007#10, 0x008#10, 0x00C#10, 0x00E#10] :=
  ⟨startAt_fetchesWord 0x7FFC 0x407352B3 [] ⟨by decide, by decide⟩ (by decide) (by decide), by decide, by decide⟩
theorem witness_IllegalWordsAbort_opImm2 : (startAt 0 0x00032293 []).FetchesWord 0x00032293#32 ∧
    opcodeOf 0x00032293#32 = 0x13#7 ∧ funct3Of 0x00032293#32 = 2#3 :=
  ⟨startAt_fetchesWord 0 0x00032293 [] ⟨by decide, by decide⟩ (by decide) (by decide), by decide, by decide⟩
theorem witness_IllegalWordsAbort_opImm3 : (startAt 0 0x00033293 []).FetchesWord 0x00033293#32 ∧
    opcodeOf 0x00033293#32 = 0x13#7 ∧ funct3Of 0x00033293#32 = 3#3 :=
  ⟨startAt_fetchesWord 0 0x00033293 [] ⟨by decide, by decide⟩ (by decide) (by decide), by decide, by decide⟩
theorem witness_IllegalWordsAbort_branch2 : (startAt 0 0x0020A463 []).FetchesWord 0x0020A463#32 ∧
    opcodeOf 0x0020A463#32 = 0x63#7 ∧ funct3Of 0x0020A463#32 = 2#3 :=
  ⟨startAt_fetchesWord 0 0x0020A463 [] ⟨by decide, by decide⟩ (by decide) (by decide), by decide, by decide⟩
theorem witness_IllegalWordsAbort_branch3 : (startAt 0 0x0020B463 []).FetchesWord 0x0020B463#32 ∧
    opcodeOf 0x0020B463#32 = 0x63#7 ∧ funct3Of 0x0020B463#32 = 3#3 :=
  ⟨startAt_fetchesWord 0 0x0020B463 [] ⟨by decide, by decide⟩ (by decide) (by decide), by decide, by decide⟩

theorem witness_StepRunsTheDecodedInstruction :
    (startAt 8 0x010000EF []).FetchesWord 0x010000EF#32 ∧ decode 0x010000EF#32 = .ok (.jal 1 16#21) :=
  ⟨startAt_fetchesWord 8 0x010000EF [] ⟨by decide, by decide⟩ (by decide) (by decide), by decide⟩

theorem witness_SentinelHaltsBeforeTheFetch :
    (start 2 [(31, 0xDEADBEEF)]).run = .running ∧ (start 2 [(31, 0xDEADBEEF)]).readReg 31 = 0xDEADBEEF#32 := by decide

/-- `EndedRunsNeverChange`: a halted and an aborted state, each reached from itself by a whole step. -/
theorem witness_EndedRunsNeverChange :
    (let s : State := { start 0 [] with run := .halted }
     s.Ended ∧ Reaches s s) ∧
    (let s : State := { start 2 [] with run := .aborted (.fetchMisaligned 2) }
     s.Ended ∧ Reaches s s) :=
  ⟨⟨by simp [State.Ended], .step .refl rfl⟩, ⟨by simp [State.Ended], .step .refl rfl⟩⟩

/-- `RunTransitions`, `FaultingCycleChangesOnlyTheRun`, `ClockCountsRetiredCycles`: a running state whose step retires,
one whose step halts, one whose fetch faults, and one whose memory stage faults. -/
theorem witness_RunTransitions :
    (startAt 0 0x00500093 []).run = .running ∧ runAfter 0 0x00500093 [] = some (.running, 4, 1) ∧
    runAfter 0 0x00500093 [(31, 0xDEADBEEF)] = some (.halted, 0, 0) ∧
    runAfter 2 0 [] = some (.aborted (.fetchMisaligned 2), 2, 0) ∧
    runAfter 0 0x0000A003 [(1, 2)] = some (.aborted (.dataMisaligned 2), 0, 0) := by decide

theorem witness_BadFetchAborts_misaligned :
    (start 0x7FFE []).Fetches ∧ (start 0x7FFE []).pc.toNat % 4 ≠ 0 := ⟨⟨by decide, by decide⟩, by decide⟩
theorem witness_BadFetchAborts_outOfRange :
    (start 0x8000 []).Fetches ∧ (start 0x8000 []).pc.toNat % 4 = 0 ∧ 32768 ≤ (start 0x8000 []).pc.toNat :=
  ⟨⟨by decide, by decide⟩, by decide, by decide⟩

theorem witness_DefaultStepsAlwaysAnswer :
    example1.params.divCorner = .riscv ∧ example1.params.strictFunct3 = false := by decide

theorem witness_StepKeepsTheInvariant :
    example1.Inv ∧ seen (fun t => (t.run, t.pc, t.dmem)) (step example1) = some (.running, 4, [(100, 42)]) :=
  ⟨example1_inv, by decide⟩

theorem witness_StepKeepsWrittenIsTouched :
    (startAt 0 0x06602223 [(6, 42)]).WrittenIsTouched ∧
    seen (fun t => t.touched) (step (startAt 0 0x06602223 [(6, 42)])) = some [100, 101, 102, 103] :=
  ⟨fun _ h => absurd rfl h, by decide⟩

theorem witness_RegisterZeroAlwaysReadsZero :
    Reaches State.reset { State.reset with run := .aborted (.illegalOpcode 0 0) } := .step .refl rfl

theorem witness_OnlyTheDestinationIsWritten :
    seen (fun t => (t.readReg 3, t.readReg 2)) (exec (.add 3 1 1) example1) = some (0x10000, 0) ∧
    (Instr.add 3 1 1).destination ≠ some 2 ∧
    seen (fun t => t.readReg 0) (exec (.add 0 1 1) example1) = some 0 := by decide

/-- `OnlyTheSourcesAreRead`: another register file that agrees on the sources alone. -/
theorem witness_OnlyTheSourcesAreRead :
    example1.run = .running ∧
    (∀ r ∈ (Instr.add 3 1 1).sources,
      State.readReg { example1 with x := (start 0 [(1, 0x8000), (9, 5)]).x } r = example1.readReg r) ∧
    seen (fun t => (t.run, t.readReg 3)) (exec (.add 3 1 1) example1) = some (.running, 0x10000) := by decide

theorem witness_NextPcTable :
    example1.run = .running ∧
    seen (fun t => (t.run, t.pc)) (exec (.bne 1 6 0x1000#13) example1) = some (.running, 0xFFFFF000) ∧
    seen (fun t => (t.run, t.pc)) (exec (.jalr 5 6 1#12 0#3) example1) = some (.running, 43) := by decide

theorem witness_TouchedIsForReportingOnly :
    (startAt 0 0x06602223 [(6, 42)]).FetchesWord 0x06602223#32 ∧
    decode 0x06602223#32 = .ok (.sw 6 0 100#12 2#3) ∧
    runAfter 0 0x06602223 [(6, 42)] = some (.running, 4, 1) :=
  ⟨startAt_fetchesWord 0 0x06602223 [(6, 42)] ⟨by decide, by decide⟩ (by decide) (by decide), by decide, by decide⟩

/-- Parameters that are not the defaults. -/
def otherParams : Params := { dmemSize := 4, shamt := .full, divCorner := .refuse, strictFunct3 := true }

/-- `TouchedIsForReportingOnly`, `NothingDependsOnTheClock`: a step that is refused. -/
theorem witness_refused_step :
    refusalOf (step { startAt 0 0x027342B3 [(6, 9)] with params := otherParams }) = some (.divisionCorner 9 0) := by
  decide

theorem witness_StoresNeverReachInstructionMemory :
    Reaches (startAt 0 0x06602223 [(6, 42)]) ((startAt 0 0x06602223 [(6, 42)]).storeWord 100 42 |>.advanceTo 4) :=
  .step .refl rfl

theorem witness_MemoryStageOnlyForLoadsAndStores :
    ((Instr.add 3 1 1).accessesData = false ∧ (seen (fun t => t.pc) (exec (.add 3 1 1) example1)).isSome = true) ∧
    (example1.params.strictFunct3 = false ∧
      example1.memRead (example1.basePlus 0 100#12) = .ok 7 ∧
      example1.memRead (example1.basePlus 0 2#12) = .error (.dataMisaligned 2) ∧
      example1.memRead (example1.basePlus 1 0#12) = .error (.dataOutOfRange 0x8000) ∧
      example1.memRead (example1.basePlus 1 0xFFC#12) = .ok 0 ∧
      example1.memWrite (example1.basePlus 1 0xFFC#12) 0 = .ok (example1.storeWord 0x7FFC 0) ∧
      example1.memWrite (example1.basePlus 0 0xFFF#12) 0 = .error (.dataMisaligned 0xFFFFFFFF)) := by decide

theorem witness_RdZeroSuppressesOnlyTheWrite :
    (startAt 0 0x0000A003 [(1, 2)]).FetchesWord 0x0000A003#32 ∧
    (Instr.jal 5 16#21).destination = some 5 ∧ seen (fun t => t.readReg 5) (exec (.jal 5 16#21) example1) = some 4 ∧
    (Instr.div 5 6 7).destination = some 5 ∧
    refusalOf (exec (.div 5 6 7) { example1 with params := otherParams }) = some (.divisionCorner 42 0) ∧
    example1.readReg 0 = 0 :=
  ⟨startAt_fetchesWord 0 0x0000A003 [(1, 2)] ⟨by decide, by decide⟩ (by decide) (by decide), by decide, by decide,
    by decide, by decide, by decide⟩

theorem witness_WriteBackWritesTheSelectedValue :
    decodeStage 0x0020E863 bundleStart =
      .ok (⟨0x63, 0x006, 0x11, 0x22, 0, 16⟩, ⟨.none, false, true, true, true⟩) ∧
    decodeStage 0x010000EF bundleStart = .ok (⟨0x6F, 0, 0, 0, 1, 16⟩, ⟨.pcPlus4, true, true, true, false⟩) := by decide

theorem witness_LogicImmediate : 31 < 32 := by decide

/-- `ShiftsByLowFiveBits`, `DivisionCorners` (both corners). -/
theorem witness_default_rules :
    example1.params.shamt = .low5 ∧ example1.params.divCorner = .riscv ∧ example1.readReg 2 = 0 ∧
    (start 0 [(1, 0x80000000), (2, 0xFFFFFFFF)]).params.divCorner = .riscv ∧
    (start 0 [(1, 0x80000000), (2, 0xFFFFFFFF)]).readReg 1 = 0x80000000#32 ∧
    (start 0 [(1, 0x80000000), (2, 0xFFFFFFFF)]).readReg 2 = 0xFFFFFFFF#32 := by decide

/-- `ShiftsByTheFullOperand`, `DivisionCornersRefused`. -/
theorem witness_other_rules :
    (let s : State := { start 0 [(1, 0x80000000), (2, 0xFFFFFFFF)] with params := otherParams }
     s.params.shamt = .full ∧ s.params.divCorner = .refuse ∧ s.readReg 3 = 0 ∧
     s.readReg 1 = 0x80000000#32 ∧ s.readReg 2 = 0xFFFFFFFF#32) := by decide

theorem witness_DivideAndRemainder :
    (start 0 [(1, 0x80000000), (2, 2)]).readReg 2 ≠ 0 ∧
    ¬ ((start 0 [(1, 0x80000000), (2, 2)]).readReg 1 = 0x80000000#32 ∧
      (start 0 [(1, 0x80000000), (2, 2)]).readReg 2 = 0xFFFFFFFF#32) := by decide

/-- `LoadWord`, `StoreWord`: the first and the last word of data memory, with either way to accept the funct3. -/
theorem witness_LoadWord :
    (example1.params.strictFunct3 = false ∧ (example1.basePlus 0 0#12).toNat % 4 = 0 ∧
      (example1.basePlus 0 0#12).toNat + 3 < example1.params.dmemSize) ∧
    ((example1.basePlus 1 0xFFC#12).toNat % 4 = 0 ∧
      (example1.basePlus 1 0xFFC#12).toNat + 3 < example1.params.dmemSize) ∧
    (let s : State := { start 0 [] with params := otherParams }
     s.params.strictFunct3 = true ∧ (s.basePlus 0 0#12).toNat % 4 = 0 ∧
       (s.basePlus 0 0#12).toNat + 3 < s.params.dmemSize) := by decide

/-- `BadDataAddressAborts`: the last misaligned addresses, and the first word outside data memory. -/
theorem witness_BadDataAddressAborts :
    (example1.basePlus 1 0xFFF#12).toNat % 4 ≠ 0 ∧ (example1.basePlus 0 0xFFE#12).toNat % 4 ≠ 0 ∧
    ((example1.basePlus 1 0#12).toNat % 4 = 0 ∧
      example1.params.dmemSize ≤ (example1.basePlus 1 0#12).toNat + 3) := by decide

/-- `LoadReturnsTheLastStore`: a store, then a load of the same word and one of the word beside it. -/
theorem witness_LoadReturnsTheLastStore :
    example1.run = .running ∧
    seen (fun t => (t.run, t.basePlus 0 100#12, t.basePlus 0 104#12)) (exec (.sw 6 0 100#12 2#3) example1) =
      some (.running, 100, 104) ∧
    example1.basePlus 0 100#12 = 100 ∧
    seen (fun u => (u.run, u.readReg 5)) (exec (.lw 5 0 100#12 2#3) (example1.storeWord 100 42 |>.advanceTo 4)) =
      some (.running, 42) := by decide

theorem witness_BranchGatesAgree :
    (2#3 = 2#3 ∨ 2#3 = 3#3) ∧ (3#3 = 2#3 ∨ 3#3 = 3#3) ∧ 1#3 ≠ 2#3 ∧ 1#3 ≠ 3#3 ∧ 4#3 ≠ 2#3 ∧ 4#3 ≠ 3#3 := by decide

/-- `UnexaminedFunct3`, `JumpsLinkAndGo`. -/
theorem witness_UnexaminedFunct3 :
    example1.params.strictFunct3 = false ∧
    (let s : State := { start 0 [] with params := otherParams }
     s.params.strictFunct3 = true) ∧ (0#3 ≠ 2#3) ∧ (7#3 ≠ 0#3) := by decide

/-- `BadTargetFaultsAtTheNextFetch`: a jump to 2 and a jump to the first address outside instruction memory. -/
theorem witness_BadTargetFaultsAtTheNextFetch :
    example1.run = .running ∧ (Instr.jalr 0 1 0#12 0#3).accessesData = false ∧
    seen (fun t => (t.readReg 31, t.pc.toNat)) (exec (.jalr 0 0 2#12 0#3) example1) = some (0, 2) ∧
    seen (fun t => (t.readReg 31, t.pc.toNat)) (exec (.jalr 0 1 0#12 0#3) example1) = some (0, 32768) := by decide

end Sys2Proof.Tests
end

section
/-! SUPPORT. The rules of one step and of a run, and what every instruction keeps. -/

namespace Sys2Proof.Machine

/-! ## The step, one rule for each way it goes (`40_execute_cycle.md` R139) -/

/-- The check at the top of a cycle compares all 32 bits of `x[31]` (`40_execute_cycle.md` R137). -/
theorem haltRequested_iff (s : State) : s.haltRequested = true ↔ s.readReg 31 = 0xDEADBEEF#32 := beq_iff_eq

/-- The sentinel halts a running core. -/
theorem step_of_sentinel {s : State} (hr : s.run = .running) (hx : s.readReg 31 = 0xDEADBEEF#32) :
    step s = .next s.halt := by
  rw [step_running s hr, if_pos ((haltRequested_iff s).mpr hx)]

/-- A cycle whose fetch or decoding faults aborts. -/
theorem step_of_fetchInstr_error {s : State} {f : Fault} (hs : s.Fetches) (hf : s.fetchInstr = .error f) :
    step s = raise f s := by
  rw [step_running s hs.running, if_neg (mt (haltRequested_iff s).mp hs.noSentinel), hf]

/-- A cycle that fetches an instruction executes it. -/
theorem step_of_fetchInstr_ok {s : State} {i : Instr} (hs : s.Fetches) (hf : s.fetchInstr = .ok i) :
    step s = exec i s := by
  rw [step_running s hs.running, if_neg (mt (haltRequested_iff s).mp hs.noSentinel), hf]

/-- A cycle whose fetch faults aborts with that fault. -/
theorem step_of_ifetch_error {s : State} {f : Fault} (hs : s.Fetches) (hf : s.ifetch = .error f) :
    step s = abortOf f s :=
  step_of_fetchInstr_error hs (fetchInstr_of_fault s f hf)

/-! ## Fetch and store -/

/-- A misaligned fetch (`20_memory.md` R54). -/
theorem ifetch_misaligned {s : State} (h : s.pc.toNat % 4 ≠ 0) : s.ifetch = .error (.fetchMisaligned s.pc) := by
  rcases ifetch_cases s with ⟨_, hf⟩ | ⟨ha, _, _⟩ | ⟨ha, _, _⟩
  · exact hf
  · exact absurd ha h
  · exact absurd ha h

/-- An aligned fetch beyond instruction memory (`20_memory.md` R54). -/
theorem ifetch_outOfRange {s : State} (ha : s.pc.toNat % 4 = 0) (hi : Config.imemSize ≤ s.pc.toNat) :
    s.ifetch = .error (.fetchOutOfRange s.pc) := by
  rcases ifetch_cases s with ⟨hn, _⟩ | ⟨_, _, hf⟩ | ⟨_, hlt, _⟩
  · exact absurd ha hn
  · exact hf
  · omega

/-- The fetch of a state that fetches `w` reads `w`. -/
theorem ifetch_of_fetchesWord {s : State} {w : Word} (h : s.FetchesWord w) : s.ifetch = .ok w := by
  have hword : s.imem.readWord s.pc.toNat = w := by
    rw [Memory.readWord, h.byte0, h.byte1, h.byte2, h.byte3]
    exact wordOfBytes_byteOf w
  rcases ifetch_cases s with ⟨hn, _⟩ | ⟨_, hge, _⟩ | ⟨_, _, hf⟩
  · exact absurd h.aligned hn
  · exact absurd h.inside (by omega)
  · rw [hf, hword]

/-- The step of a word that decodes executes its instruction. -/
theorem step_of_fetchesWord {s : State} {w : Word} {i : Instr} (h : s.FetchesWord w) (hd : decode w = .ok i) :
    step s = exec i s := by
  refine step_of_fetchInstr_ok h.fetches ?_
  rw [fetchInstr_of_ifetch s w (ifetch_of_fetchesWord h), hd]

/-- A store that succeeds writes and marks the word, and does nothing else (`20_memory.md` R58). -/
theorem memWrite_ok {s t : State} {a v : Word} (h : s.memWrite a v = .ok t) : t = s.storeWord a.toNat v := by
  rcases memWrite_cases s a v with ⟨_, hw⟩ | ⟨_, _, hw⟩ | ⟨_, _, hw⟩
  · simp [hw] at h
  · simp [hw] at h
  · exact Except.ok.inj (h.symm.trans hw)

/-! ## What an instruction keeps -/

/-- An instruction leaves every register but its destination, and register 0, as it was. -/
theorem readReg_exec_of_not_destination {i : Instr} {s t : State} (he : exec i s = .next t) {r : Reg}
    (hr : i.destination ≠ some r ∨ r = 0) : t.readReg r = s.readReg r := by
  cases exec_effect i s t he with
  | result rd v target hd =>
    rw [readReg_advanceTo, readReg_writeReg, if_neg]
    rintro ⟨rfl, hne⟩
    exact hr.elim (· hd) hne
  | goes target => rfl
  | stores a v => rfl
  | aborts f => rfl

/-- An instruction other than LW and SW does not end the run. -/
theorem run_exec_of_not_accessesData {i : Instr} {s t : State} (hi : i.accessesData = false)
    (he : exec i s = .next t) : t.run = s.run := by
  cases exec_effect i s t he with
  | result rd v target => simp
  | goes target => rfl
  | stores a v => rfl
  | aborts f hm => simp [hi] at hm

/-- A cycle that leaves the core running counts one on the clock. -/
theorem clock_exec_of_running {i : Instr} {s t : State} (he : exec i s = .next t) (ht : t.run = .running) :
    t.clock = s.clock + 1 := by
  cases exec_effect i s t he with
  | result rd v target => simp
  | goes target => rfl
  | stores a v => rfl
  | aborts f => simp at ht

/-- No instruction clears a mark (`10_state.md` R36). -/
theorem touched_exec {i : Instr} {s t : State} (he : exec i s = .next t) {a : Nat} (ha : a ∈ s.touched) :
    a ∈ t.touched := by
  cases exec_effect i s t he with
  | result rd v target => simpa using ha
  | goes target => exact ha
  | stores b v => exact (mem_touchWord _ _ _).mpr (.inr ha)
  | aborts f => exact ha

/-! ## Steps and runs -/

/-- No step changes what register 0 reads. -/
theorem readReg_zero_step {s t : State} (h : step s = .next t) : t.readReg 0 = s.readReg 0 := by
  cases step_effect s t h with
  | ended => rfl
  | halts => rfl
  | fetchFault => rfl
  | executes i t _ _ _ he => exact readReg_exec_of_not_destination he (.inr rfl)

/-- No step clears a mark (`10_state.md` R36). -/
theorem touched_step {s t : State} (h : step s = .next t) {a : Nat} (ha : a ∈ s.touched) : a ∈ t.touched := by
  cases step_effect s t h with
  | ended => exact ha
  | halts => exact ha
  | fetchFault => exact ha
  | executes i t _ _ _ he => exact touched_exec he ha

/-- A fact about states that every step keeps holds in every state reached from one where it holds. -/
theorem keeps_of_reaches {P : State → Prop} (hstep : ∀ t u : State, P t → step t = .next u → P u) {s t : State}
    (hs : P s) (h : Reaches s t) : P t := by
  induction h with
  | refl => exact hs
  | step _ hu ih => exact hstep _ _ ih hu

/-- No run changes what register 0 reads. -/
theorem readReg_zero_of_reaches {s t : State} (h : Reaches s t) : t.readReg 0 = s.readReg 0 :=
  keeps_of_reaches (P := fun u => u.readReg 0 = s.readReg 0) (fun _ _ ih hu => (readReg_zero_step hu).trans ih) rfl h

/-- An ended run stays where it is. -/
theorem eq_of_reaches_of_ended {s t : State} (hs : s.Ended) (h : Reaches s t) : t = s := by
  refine keeps_of_reaches (P := (· = s)) (fun u u' hu hstep => ?_) rfl h
  subst hu
  rw [step_ended u hs] at hstep
  exact (Host.Outcome.next.inj hstep).symm

end Sys2Proof.Machine
end

section
/-! SUPPORT. The invariant of `10_state.md` R42, and "a byte that is not 0 is marked" of R36, under each operation. -/

namespace Sys2Proof.Machine

/-! ## The invariant, one lemma for each operation -/

/-- A register write keeps the invariant: index 0 is never written. -/
theorem inv_writeReg {s : State} (h : s.Inv) (i : Reg) (v : Word) : (s.writeReg i v).Inv where
  zeroRegister := (readReg_zero_writeReg s i v).trans h.zeroRegister
  imemCanonical := by simpa using h.imemCanonical
  imemInside := by simpa using h.imemInside
  dmemCanonical := by simpa using h.dmemCanonical
  dmemInside := by simpa using h.dmemInside
  touchedRising := by simpa using h.touchedRising
  touchedInside := by simpa using h.touchedInside

/-- The invariant does not speak of `pc` and `clock`. -/
theorem inv_advanceTo {s : State} (h : s.Inv) (target : Word) : (s.advanceTo target).Inv := { h with }

/-- The invariant does not speak of `run`. -/
theorem inv_withRun {s : State} (h : s.Inv) (m : RunState) : State.Inv { s with run := m } := { h with }

/-- A store inside data memory keeps the invariant. -/
theorem inv_storeWord {s : State} (h : s.Inv) (a : Nat) (v : Word) (ha : a + 3 < s.params.dmemSize) :
    (s.storeWord a v).Inv :=
  { h with
    dmemCanonical := wf_writeWord _ _ _ h.dmemCanonical
    dmemInside := inside_writeWord _ _ _ _ ha h.dmemInside
    touchedRising := pairwise_touchWord _ _ h.touchedRising
    touchedInside := by
      intro b hb
      rcases (mem_touchWord _ _ _).mp hb with hb | hb
      · show b < s.params.dmemSize
        omega
      · exact h.touchedInside b hb }

/-- Every instruction keeps the invariant. -/
theorem inv_exec {i : Instr} {s t : State} (h : s.Inv) (he : exec i s = .next t) : t.Inv := by
  cases exec_effect i s t he with
  | result rd v target => exact inv_advanceTo (inv_writeReg h rd v) target
  | goes target => exact inv_advanceTo h target
  | stores a v _ _ _ inside => exact inv_advanceTo (inv_storeWord h a.toNat v inside) _
  | aborts f => exact inv_withRun h _

/-! ## A data byte that is not 0 is marked -/

/-- A store marks the bytes it writes. -/
theorem writtenIsTouched_storeWord {s : State} (h : s.WrittenIsTouched) (a : Nat) (v : Word) :
    (s.storeWord a v).WrittenIsTouched := by
  intro b hb
  rw [storeWord_touched, mem_touchWord]
  by_cases hcovered : a ≤ b ∧ b < a + 4
  · exact .inl hcovered
  · rw [storeWord_dmem, read_writeWord, if_neg hcovered] at hb
    exact .inr (h b hb)

/-- Every instruction keeps "a byte that is not 0 is marked". -/
theorem writtenIsTouched_exec {i : Instr} {s t : State} (h : s.WrittenIsTouched) (he : exec i s = .next t) :
    t.WrittenIsTouched := by
  cases exec_effect i s t he with
  | result rd v target => simpa [State.WrittenIsTouched] using h
  | goes target => exact h
  | stores a v => exact writtenIsTouched_storeWord h a.toNat v
  | aborts f => exact h

end Sys2Proof.Machine
end

section
/-! SUPPORT. What a cycle does as a datum: which action it takes depends on the instruction's inputs alone. The frames
and noninterference of `10_state.md` follow from this once for all instructions. -/

namespace Sys2Proof.Machine

/-- What one step does to the state. -/
inductive Action where
  | stays
  | halts
  | aborts (f : Fault)
  | refuses (r : Refusal)
  | result (rd : Reg) (v target : Word)
  | goes (target : Word)
  | stores (a v target : Word)

/-- The answer of a step that takes the action. -/
def Action.apply (s : State) : Action → Host.Outcome State Fault Refusal
  | .stays => .next s
  | .halts => .next s.halt
  | .aborts f => raise f s
  | .refuses r => .refused r
  | .result rd v target => retire rd v target s
  | .goes target => .next (s.advanceTo target)
  | .stores a v target => .next ((s.storeWord a.toNat v).advanceTo target)

/-- The actions an instruction may take in a state: one that retires goes where the table of `10_state.md` R26 has it,
only LW and SW abort, and a refusal needs a parameter that is not the default. -/
def Action.Fits (i : Instr) (s : State) : Action → Prop
  | .stays => False
  | .halts => False
  | .aborts _ => i.accessesData = true
  | .refuses _ => s.params.divCorner ≠ .riscv ∨ s.params.strictFunct3 = true
  | .result rd _ target => i.destination = some rd ∧ target = nextPcOf i s
  | .goes target => i.destination = none ∧ i.accessesData = false ∧ target = nextPcOf i s
  | .stores a v target => ∃ (rs2 rs1 : Reg) (imm : BitVec 12) (f3 : BitVec 3), i = .sw rs2 rs1 imm f3 ∧
      a = s.basePlus rs1 imm ∧ v = s.readReg rs2 ∧ target = s.pcPlus4

/-- `s'` agrees with `s` in all that the instruction depends on: `pc`, the rules, its source registers (`10_state.md`
R24), and data memory if it accesses it. -/
structure SameInputs (i : Instr) (s s' : State) : Prop where
  pc : s'.pc = s.pc
  shamt : s'.params.shamt = s.params.shamt
  divCorner : s'.params.divCorner = s.params.divCorner
  strictFunct3 : s'.params.strictFunct3 = s.params.strictFunct3
  sources : ∀ r ∈ i.sources, s'.readReg r = s.readReg r
  dmem : i.accessesData = true → s'.dmem = s.dmem
  dmemSize : i.accessesData = true → s'.params.dmemSize = s.params.dmemSize

/-- The instruction takes one and the same fitting action in every state with the same inputs. -/
def ActsOnInputs (i : Instr) (s : State) : Prop :=
  ∃ a : Action, a.Fits i s ∧ ∀ s' : State, SameInputs i s s' → exec i s' = a.apply s'

/-! ## One lemma for each way an instruction ends -/

theorem SameInputs.refl (i : Instr) (s : State) : SameInputs i s s :=
  ⟨rfl, rfl, rfl, rfl, fun _ _ => rfl, fun _ => rfl, fun _ => rfl⟩

theorem SameInputs.pcPlus4 {i : Instr} {s s' : State} (h : SameInputs i s s') : s'.pcPlus4 = s.pcPlus4 :=
  congrArg (· + 4) h.pc

theorem SameInputs.basePlus {i : Instr} {s s' : State} (h : SameInputs i s s') {rs1 : Reg} (hr : rs1 ∈ i.sources)
    (imm : BitVec 12) : s'.basePlus rs1 imm = s.basePlus rs1 imm :=
  congrArg (· + sext12 imm) (h.sources rs1 hr)

theorem SameInputs.memRead {i : Instr} {s s' : State} (h : SameInputs i s s') (hi : i.accessesData = true)
    (a : Word) : s'.memRead a = s.memRead a := by
  simp only [State.memRead, h.dmem hi, h.dmemSize hi]

/-- A store faults alike in all states with the same inputs, or stores the word in each. -/
theorem memWrite_same {i : Instr} (hi : i.accessesData = true) (s : State) (a v : Word) :
    (∃ f : Fault, ∀ s' : State, SameInputs i s s' → s'.memWrite a v = .error f) ∨
    ∀ s' : State, SameInputs i s s' → s'.memWrite a v = .ok (s'.storeWord a.toNat v) := by
  by_cases ha : wordAligned a = true
  · by_cases hin : insideMemory s.params.dmemSize a = true
    · exact .inr fun s' h => by simp [State.memWrite, ha, h.dmemSize hi, hin]
    · exact .inl ⟨.dataOutOfRange a, fun s' h => by simp [State.memWrite, ha, h.dmemSize hi, hin]⟩
  · exact .inl ⟨.dataMisaligned a, fun s' _ => by simp [State.memWrite, ha]⟩

/-- A cycle that writes a value of its inputs to `rd`. -/
theorem actsOnInputs_retire {i : Instr} {s : State} {rd : Reg} {v target : State → Word}
    (he : ∀ s' : State, exec i s' = retire rd (v s') (target s') s') (hd : i.destination = some rd)
    (htarget : target s = nextPcOf i s)
    (hin : ∀ s' : State, SameInputs i s s' → v s' = v s ∧ target s' = target s) : ActsOnInputs i s := by
  refine ⟨.result rd (v s) (target s), ⟨hd, htarget⟩, fun s' h => ?_⟩
  obtain ⟨hv, ht⟩ := hin s' h
  rw [he, hv, ht]
  rfl

/-- A division. -/
theorem actsOnInputs_division {i : Instr} {s : State} {rd : Reg} {a b : State → Word} {v : Word → Word → Word}
    (he : ∀ s' : State, exec i s' =
      retireDivision rd (underCornerRule s'.params.divCorner (a s') (b s') (v (a s') (b s'))) s')
    (hd : i.destination = some rd) (htarget : s.pcPlus4 = nextPcOf i s)
    (hin : ∀ s' : State, SameInputs i s s' → a s' = a s ∧ b s' = b s) : ActsOnInputs i s := by
  have hres : ∀ s' : State, SameInputs i s s' → exec i s' =
      retireDivision rd (underCornerRule s.params.divCorner (a s) (b s) (v (a s) (b s))) s' := by
    intro s' h
    obtain ⟨ha, hb⟩ := hin s' h
    rw [he, ha, hb, h.divCorner]
  cases hr : underCornerRule s.params.divCorner (a s) (b s) (v (a s) (b s)) with
  | ok q =>
    refine ⟨.result rd q s.pcPlus4, ⟨hd, htarget⟩, fun s' h => ?_⟩
    rw [hres s' h, hr, ← h.pcPlus4]
    rfl
  | error r =>
    refine ⟨.refuses r, .inl fun hrule => ?_, fun s' h => ?_⟩
    · simp [hrule, underCornerRule] at hr
    · rw [hres s' h, hr]
      rfl

/-- A branch. -/
theorem actsOnInputs_branch {i : Instr} {s : State} {taken : State → Bool} {off : BitVec 13}
    (he : ∀ s' : State, exec i s' = retireBranch (taken s') off s') (hd : i.destination = none)
    (hm : i.accessesData = false)
    (htarget : (if taken s then s.branchTarget off else s.pcPlus4) = nextPcOf i s)
    (hin : ∀ s' : State, SameInputs i s s' → taken s' = taken s) : ActsOnInputs i s := by
  refine ⟨.goes _, ⟨hd, hm, htarget⟩, fun s' h => ?_⟩
  rw [he, retireBranch, hin s' h, h.pcPlus4, State.branchTarget, h.pc]
  rfl

/-- What an unaccepted funct3 means: `STRICT_FUNCT3` is true (`30_encoding.md` R103). -/
theorem strictFunct3_of_not_accepted {strict : Bool} {c f3 : BitVec 3} (h : ¬ funct3Accepted strict c f3 = true) :
    strict = true := by
  rw [funct3Accepted_iff, not_or] at h
  simpa using h.1

/-- An instruction that is refused under `STRICT_FUNCT3 = true`. -/
theorem actsOnInputs_refused {i : Instr} {s : State} {r : Refusal} (hstrict : s.params.strictFunct3 = true)
    (he : ∀ s' : State, SameInputs i s s' → exec i s' = .refused r) : ActsOnInputs i s :=
  ⟨.refuses r, .inr hstrict, he⟩

theorem exec_jalr (rd rs1 : Reg) (imm : BitVec 12) (f3 : BitVec 3) (s : State) :
    exec (.jalr rd rs1 imm f3) s = execJalr rd rs1 imm f3 s := rfl

theorem exec_lw (rd rs1 : Reg) (imm : BitVec 12) (f3 : BitVec 3) (s : State) :
    exec (.lw rd rs1 imm f3) s = execLw rd rs1 imm f3 s := rfl

theorem exec_sw (rs2 rs1 : Reg) (imm : BitVec 12) (f3 : BitVec 3) (s : State) :
    exec (.sw rs2 rs1 imm f3) s = execSw rs2 rs1 imm f3 s := rfl

/-- JALR: the base and the link are the same. -/
theorem actsOnInputs_jalr (rd rs1 : Reg) (imm : BitVec 12) (f3 : BitVec 3) (s : State) :
    ActsOnInputs (.jalr rd rs1 imm f3) s := by
  by_cases hf : funct3Accepted s.params.strictFunct3 canonicalJalrFunct3 f3 = true
  · refine ⟨.result rd s.pcPlus4 (s.basePlus rs1 imm), ⟨rfl, rfl⟩, fun s' h => ?_⟩
    rw [exec_jalr, execJalr, h.strictFunct3, if_pos hf, h.pcPlus4, h.basePlus List.mem_cons_self]
    rfl
  · refine actsOnInputs_refused (r := .nonCanonicalFunct3 f3) (strictFunct3_of_not_accepted hf) fun s' h => ?_
    rw [exec_jalr, execJalr, h.strictFunct3, if_neg hf]

/-- LW: the address, its checks and the bytes read are the same. -/
theorem actsOnInputs_lw (rd rs1 : Reg) (imm : BitVec 12) (f3 : BitVec 3) (s : State) :
    ActsOnInputs (.lw rd rs1 imm f3) s := by
  by_cases hf : funct3Accepted s.params.strictFunct3 canonicalWordFunct3 f3 = true
  · have hread : ∀ s' : State, SameInputs (.lw rd rs1 imm f3) s s' →
        s'.memRead (s'.basePlus rs1 imm) = s.memRead (s.basePlus rs1 imm) := fun s' h => by
      rw [h.basePlus List.mem_cons_self, h.memRead rfl]
    cases hr : s.memRead (s.basePlus rs1 imm) with
    | error f =>
      refine ⟨.aborts f, rfl, fun s' h => ?_⟩
      rw [exec_lw, execLw, h.strictFunct3, if_pos hf, hread s' h, hr]
      rfl
    | ok v =>
      refine ⟨.result rd v s.pcPlus4, ⟨rfl, rfl⟩, fun s' h => ?_⟩
      rw [exec_lw, execLw, h.strictFunct3, if_pos hf, hread s' h, hr, ← h.pcPlus4]
      rfl
  · refine actsOnInputs_refused (r := .nonCanonicalFunct3 f3) (strictFunct3_of_not_accepted hf) fun s' h => ?_
    rw [exec_lw, execLw, h.strictFunct3, if_neg hf]

/-- SW: the address, its checks and the word stored are the same. -/
theorem actsOnInputs_sw (rs2 rs1 : Reg) (imm : BitVec 12) (f3 : BitVec 3) (s : State) :
    ActsOnInputs (.sw rs2 rs1 imm f3) s := by
  by_cases hf : funct3Accepted s.params.strictFunct3 canonicalWordFunct3 f3 = true
  · have hbase : ∀ s' : State, SameInputs (.sw rs2 rs1 imm f3) s s' → s'.basePlus rs1 imm = s.basePlus rs1 imm :=
      fun s' h => h.basePlus List.mem_cons_self imm
    have hdata : ∀ s' : State, SameInputs (.sw rs2 rs1 imm f3) s s' → s'.readReg rs2 = s.readReg rs2 :=
      fun s' h => h.sources rs2 (List.mem_cons_of_mem _ List.mem_cons_self)
    rcases memWrite_same (i := .sw rs2 rs1 imm f3) rfl s (s.basePlus rs1 imm) (s.readReg rs2) with ⟨f, hw⟩ | hw
    · refine ⟨.aborts f, rfl, fun s' h => ?_⟩
      rw [exec_sw, execSw, h.strictFunct3, if_pos hf, hbase s' h, hdata s' h, hw s' h]
      rfl
    · refine ⟨.stores (s.basePlus rs1 imm) (s.readReg rs2) s.pcPlus4, ⟨_, _, _, _, rfl, rfl, rfl, rfl⟩,
        fun s' h => ?_⟩
      rw [exec_sw, execSw, h.strictFunct3, if_pos hf, hbase s' h, hdata s' h, hw s' h, ← h.pcPlus4]
      rfl
  · refine actsOnInputs_refused (r := .nonCanonicalFunct3 f3) (strictFunct3_of_not_accepted hf) fun s' h => ?_
    rw [exec_sw, execSw, h.strictFunct3, if_neg hf]

/-- Every instruction acts on its inputs. -/
theorem actsOnInputs (i : Instr) (s : State) : ActsOnInputs i s := by
  cases i with
  | lw rd rs1 imm f3 => exact actsOnInputs_lw rd rs1 imm f3 s
  | sw rs2 rs1 imm f3 => exact actsOnInputs_sw rs2 rs1 imm f3 s
  | jalr rd rs1 imm f3 => exact actsOnInputs_jalr rd rs1 imm f3 s
  | div rd rs1 rs2 | rem rd rs1 rs2 =>
    exact actsOnInputs_division (fun _ => rfl) rfl rfl fun s' h =>
      ⟨h.sources rs1 List.mem_cons_self, h.sources rs2 (List.mem_cons_of_mem _ List.mem_cons_self)⟩
  | beq rs1 rs2 off | bne rs1 rs2 off | blt rs1 rs2 off | bge rs1 rs2 off | bltu rs1 rs2 off | bgeu rs1 rs2 off =>
    refine actsOnInputs_branch (fun _ => rfl) rfl rfl ?_ fun s' h => ?_
    · simp [nextPcOf, condEq, condNe, condLt, condGe, condLtu, condGeu, State.branchTarget, sext13, State.pcPlus4]
    · simp only [h.sources rs1 List.mem_cons_self, h.sources rs2 (List.mem_cons_of_mem _ List.mem_cons_self)]
  | add rd rs1 rs2 | sub rd rs1 rs2 | xor rd rs1 rs2 | or rd rs1 rs2 | and rd rs1 rs2 | mul rd rs1 rs2
  | sll rd rs1 rs2 | srl rd rs1 rs2 =>
    refine actsOnInputs_retire (fun _ => rfl) rfl rfl fun s' h => ⟨?_, h.pcPlus4⟩
    simp only [h.sources rs1 List.mem_cons_self, h.sources rs2 (List.mem_cons_of_mem _ List.mem_cons_self), h.shamt]
  | addi rd rs1 imm | xori rd rs1 imm | ori rd rs1 imm | andi rd rs1 imm | slli rd rs1 imm | srli rd rs1 imm =>
    refine actsOnInputs_retire (fun _ => rfl) rfl rfl fun s' h => ⟨?_, h.pcPlus4⟩
    simp only [h.sources rs1 List.mem_cons_self, h.shamt]
  | jal rd off =>
    exact actsOnInputs_retire (fun _ => rfl) rfl rfl fun s' h => ⟨h.pcPlus4, congrArg (· + sext21 off) h.pc⟩
  | lui rd imm => exact actsOnInputs_retire (fun _ => rfl) rfl rfl fun s' h => ⟨rfl, h.pcPlus4⟩
  | auipc rd imm =>
    exact actsOnInputs_retire (fun _ => rfl) rfl rfl fun s' h =>
      ⟨congrArg (aluAdd · (upperImm imm)) h.pc, h.pcPlus4⟩

/-- The action of one instruction in one state. -/
theorem exec_action (i : Instr) (s : State) : ∃ a : Action, a.Fits i s ∧ exec i s = a.apply s := by
  obtain ⟨a, hfits, ha⟩ := actsOnInputs i s
  exact ⟨a, hfits, ha s (.refl i s)⟩

/-- An action that is no refusal answers a next state. -/
theorem apply_next {a : Action} (s : State) (h : ∀ r : Refusal, a ≠ .refuses r) :
    ∃ t : State, a.apply s = .next t := by
  cases a with
  | refuses r => exact absurd rfl (h r)
  | _ => exact ⟨_, rfl⟩

/-- With the default parameters every instruction answers a next state (`92_eei_decisions.md` D6, D10). -/
theorem exec_next_of_defaults (i : Instr) {s : State} (hdiv : s.params.divCorner = .riscv)
    (hstrict : s.params.strictFunct3 = false) : ∃ t : State, exec i s = .next t := by
  obtain ⟨a, hfits, ha⟩ := exec_action i s
  rw [ha]
  refine apply_next s fun r hr => ?_
  rw [hr] at hfits
  rcases hfits with hne | htrue
  · exact hne hdiv
  · simp [hstrict] at htrue

/-- SW whose cycle retires stores `x[rs2]` at its address. -/
theorem storeWord_of_sw_running {rs2 rs1 : Reg} {imm : BitVec 12} {f3 : BitVec 3} {s t : State}
    (he : exec (.sw rs2 rs1 imm f3) s = .next t) (ht : t.run = .running) :
    t = (s.storeWord (s.basePlus rs1 imm).toNat (s.readReg rs2)).advanceTo s.pcPlus4 := by
  obtain ⟨a, hfits, ha⟩ := exec_action (.sw rs2 rs1 imm f3) s
  rw [ha] at he
  cases a with
  | stays => exact hfits.elim
  | halts => exact hfits.elim
  | refuses r => simp [Action.apply] at he
  | aborts f =>
    obtain rfl := Host.Outcome.next.inj he
    simp at ht
  | result rd v target => exact nomatch hfits.1
  | goes target => exact nomatch hfits.2.1
  | stores a v target =>
    obtain rfl := Host.Outcome.next.inj he
    obtain ⟨_, _, _, _, hi, rfl, rfl, rfl⟩ := hfits
    cases hi
    rfl

/-! ## The step -/

/-- `s'` agrees with `s` in all but `clock` and the touched map. -/
structure SameButClockAndTouched (s s' : State) : Prop where
  params : s'.params = s.params
  x : s'.x = s.x
  pc : s'.pc = s.pc
  run : s'.run = s.run
  imem : s'.imem = s.imem
  dmem : s'.dmem = s.dmem

section
variable {s s' : State} (h : SameButClockAndTouched s s')
include h

theorem SameButClockAndTouched.readReg (r : Reg) : s'.readReg r = s.readReg r := by
  rw [State.readReg, State.readReg, h.x]

theorem SameButClockAndTouched.sameInputs (i : Instr) : SameInputs i s s' where
  pc := h.pc
  shamt := by rw [h.params]
  divCorner := by rw [h.params]
  strictFunct3 := by rw [h.params]
  sources := fun r _ => h.readReg r
  dmem := fun _ => h.dmem
  dmemSize := fun _ => by rw [h.params]

theorem SameButClockAndTouched.fetches (hs : s.Fetches) : s'.Fetches :=
  ⟨h.run.trans hs.running, by rw [h.readReg]; exact hs.noSentinel⟩

theorem SameButClockAndTouched.fetchInstr : s'.fetchInstr = s.fetchInstr := by
  have hfetch : s'.ifetch = s.ifetch := by simp only [State.ifetch, h.pc, h.imem]
  cases hs : s.ifetch with
  | error f => rw [fetchInstr_of_fault s f hs, fetchInstr_of_fault s' f (hfetch.trans hs)]
  | ok w => rw [fetchInstr_of_ifetch s w hs, fetchInstr_of_ifetch s' w (hfetch.trans hs), h.pc]

end

/-- A step takes one and the same action whatever `clock` and the touched map hold. -/
theorem step_action (s : State) : ∃ a : Action, step s = a.apply s ∧
    ∀ s' : State, SameButClockAndTouched s s' → step s' = a.apply s' := by
  suffices h : ∃ a : Action, ∀ s' : State, SameButClockAndTouched s s' → step s' = a.apply s' by
    obtain ⟨a, ha⟩ := h
    exact ⟨a, ha s ⟨rfl, rfl, rfl, rfl, rfl, rfl⟩, ha⟩
  by_cases hr : s.run = .running
  · by_cases hx : s.readReg 31 = 0xDEADBEEF#32
    · exact ⟨.halts, fun s' h => step_of_sentinel (h.run.trans hr) ((h.readReg 31).trans hx)⟩
    · have hs : s.Fetches := ⟨hr, hx⟩
      cases hf : s.fetchInstr with
      | error f => exact ⟨.aborts f, fun s' h => step_of_fetchInstr_error (h.fetches hs) (h.fetchInstr.trans hf)⟩
      | ok i =>
        obtain ⟨a, -, ha⟩ := actsOnInputs i s
        exact ⟨a, fun s' h =>
          (step_of_fetchInstr_ok (h.fetches hs) (h.fetchInstr.trans hf)).trans (ha s' (h.sameInputs i))⟩
  · exact ⟨.stays, fun s' h => step_ended s' (h.run ▸ hr)⟩

/-! ## Actions over a changed field -/

/-- Only a refusal is answered with a refusal. -/
theorem apply_refused {a : Action} {s : State} {r : Refusal} (h : a.apply s = .refused r) : a = .refuses r := by
  cases a with
  | refuses r' => exact congrArg _ (Host.Outcome.refused.inj h)
  | _ => simp [Action.apply, raise, retire] at h

theorem writeReg_withClock (s : State) (i : Reg) (v : Word) (c : Nat) :
    State.writeReg { s with clock := c } i v = { s.writeReg i v with clock := c } := by
  unfold State.writeReg
  split <;> rfl

theorem writeReg_withTouched (s : State) (i : Reg) (v : Word) (u : List Nat) :
    State.writeReg { s with touched := u } i v = { s.writeReg i v with touched := u } := by
  unfold State.writeReg
  split <;> rfl

/-- From another clock an action leaves the same state but for the clock, to which it adds as much. -/
theorem apply_withClock {a : Action} {s t : State} (h : a.apply s = .next t) (c : Nat) :
    a.apply { s with clock := c } = .next { t with clock := c + (t.clock - s.clock) } := by
  cases a with
  | stays =>
    obtain rfl := Host.Outcome.next.inj h
    simp [Action.apply]
  | halts =>
    obtain rfl := Host.Outcome.next.inj h
    simp [Action.apply, State.halt]
  | aborts f =>
    obtain rfl := Host.Outcome.next.inj h
    simp [Action.apply, raise]
  | refuses r => simp [Action.apply] at h
  | result rd v target =>
    obtain rfl := Host.Outcome.next.inj h
    simp [Action.apply, retire, writeReg_withClock, State.advanceTo]
  | goes target =>
    obtain rfl := Host.Outcome.next.inj h
    simp [Action.apply, State.advanceTo]
  | stores a v target =>
    obtain rfl := Host.Outcome.next.inj h
    simp [Action.apply, State.advanceTo, State.storeWord]

/-- From another touched map an action leaves the same state but for the map. -/
theorem apply_withTouched {a : Action} {s t : State} (h : a.apply s = .next t) (u : List Nat) :
    ∃ v : List Nat, a.apply { s with touched := u } = .next { t with touched := v } := by
  cases a with
  | refuses r => simp [Action.apply] at h
  | result rd v target =>
    obtain rfl := Host.Outcome.next.inj h
    refine ⟨u, ?_⟩
    rw [Action.apply, retire, writeReg_withTouched]
    rfl
  | _ =>
    obtain rfl := Host.Outcome.next.inj h
    exact ⟨_, rfl⟩

end Sys2Proof.Machine
end

section
/-! SUPPORT. The block-level datapath (`40_execute_cycle.md` R120 to R139) does in every cycle what the
instruction-by-instruction step does: each opcode class ends both designs in the same named operation. -/

namespace Sys2Proof.Machine

/-! ## The two designs of a cycle, as answers -/

/-- The answer of the scheduler to a cycle of the datapath. -/
def answerOf (s : State) : Except CycleEnd State → Host.Outcome State Fault Refusal
  | .error (.fault f) => raise f s
  | .error (.refusal r) => .refused r
  | .ok t => .next t

/-- The instruction-by-instruction cycle on a word, from what the word decodes to. -/
def execDecoded (s : State) (w : Word) : Except DecodeError Instr → Host.Outcome State Fault Refusal
  | .error e => raise (faultOfDecodeError s.pc w e) s
  | .ok i => exec i s

@[simp] theorem execDecoded_ok (s : State) (w : Word) (i : Instr) : execDecoded s w (.ok i) = exec i s := rfl

/-! ## The stages -/

/-- The end of a cycle of the datapath: write-back, then the PC sequencer and the clock. -/
def endOfCycle (d : Decoded) (c : Control) (r m : Word) (s t : State) : State :=
  { writeBack d c r m (s.pc + 4) t with pc := nextPc c r s.pc, clock := s.clock + 1 }

section
variable {w : Word} {s t : State} {d : Decoded} {c c' : Control} {r m : Word} {e : CycleEnd}

theorem datapath_decodeError (hd : decodeStage w s = .error e) : datapath w s = .error e := by
  simp only [datapath, hd]

theorem datapath_aluError (hd : decodeStage w s = .ok (d, c))
    (ha : aluOp s.params s.pc (aluCode d) (operandA s.pc d c) (operandB d c) = .error e) :
    datapath w s = .error e := by
  simp only [datapath, hd, ha]

theorem datapath_branchError (hd : decodeStage w s = .ok (d, c))
    (ha : aluOp s.params s.pc (aluCode d) (operandA s.pc d c) (operandB d c) = .ok r)
    (hb : branchUnit s.pc d c = .error e) : datapath w s = .error e := by
  simp only [datapath, hd, ha, hb]

theorem datapath_memoryError (hd : decodeStage w s = .ok (d, c))
    (ha : aluOp s.params s.pc (aluCode d) (operandA s.pc d c) (operandB d c) = .ok r)
    (hb : branchUnit s.pc d c = .ok c') (hm : memoryStage d r s = .error e) : datapath w s = .error e := by
  simp only [datapath, hd, ha, hb, hm]

theorem datapath_ok (hd : decodeStage w s = .ok (d, c))
    (ha : aluOp s.params s.pc (aluCode d) (operandA s.pc d c) (operandB d c) = .ok r)
    (hb : branchUnit s.pc d c = .ok c') (hm : memoryStage d r s = .ok (t, m)) :
    datapath w s = .ok (endOfCycle d c' r m s t) := by
  simp only [datapath, hd, ha, hb, hm, endOfCycle]

end

@[simp] theorem decodedBundle_opcode (k : OpClass) (w : Word) (s : State) :
    (decodedBundle k w s).opcode = opcodeOf w := by
  cases k <;> rfl

section
variable {w : Word} {k : OpClass} (h : opClass (opcodeOf w) = some k) (s : State)
include h

theorem decodeStage_accepted (hk : strictCheck s.params.strictFunct3 k (funct3Of w) = true) :
    decodeStage w s = .ok (decodedBundle k w s, controlBundle k w) := by
  simp only [decodeStage, h, hk, if_true]

theorem decodeStage_notAccepted (hk : strictCheck s.params.strictFunct3 k (funct3Of w) = false) :
    decodeStage w s = .error (.refusal (.nonCanonicalFunct3 (funct3Of w))) := by
  simp only [decodeStage, h, hk, Bool.false_eq_true, if_false]

/-- The ALU adds for every class but OP and OP-IMM (`40_execute_cycle.md` R124). -/
theorem aluOp_adds (hop : k ≠ .op) (himm : k ≠ .opImm) (a b : Word) :
    aluOp s.params s.pc (aluCode (decodedBundle k w s)) a b = .ok (aluAdd a b) := by
  have hcode : aluCode (decodedBundle k w s) = 0 := by simp [aluCode, aluUsesFunct, h, hop, himm]
  rw [hcode]
  rfl

/-- The branch unit leaves the control bundle of the other classes. -/
theorem branchUnit_passes (hb : k ≠ .branch) (c : Control) : branchUnit s.pc (decodedBundle k w s) c = .ok c := by
  simp [branchUnit, isBranch, h, hb]

/-- The memory stage passes the state of every class but LOAD and STORE. -/
theorem memoryStage_passes (hl : k ≠ .load) (hs : k ≠ .store) (r : Word) :
    memoryStage (decodedBundle k w s) r s = .ok (s, 0) := by
  simp [memoryStage, h, hl, hs]

end

/-! ## The end of a cycle, by write-back selector -/

/-- The write-back stage writes by the rule of `10_state.md` R23. -/
theorem writeBack_eq (d : Decoded) (c : Control) (r m l : Word) (s : State) :
    writeBack d c r m l s = match c.wbSel with
      | .none => s
      | .alu => s.writeReg d.rd r
      | .mem => s.writeReg d.rd m
      | .pcPlus4 => s.writeReg d.rd l := by
  unfold writeBack
  split
  · rename_i hrd
    cases c.wbSel <;> simp [State.writeReg, hrd]
  · rfl

section
variable {d : Decoded} {c : Control} (r m : Word) (s : State)

theorem endOfCycle_alu (hw : c.wbSel = .alu) (hp : c.pcSrcTarget = false) :
    endOfCycle d c r m s s = (s.writeReg d.rd r).advanceTo s.pcPlus4 := by
  simp [endOfCycle, writeBack_eq, nextPc, State.advanceTo, State.pcPlus4, hw, hp]

theorem endOfCycle_mem (hw : c.wbSel = .mem) (hp : c.pcSrcTarget = false) :
    endOfCycle d c r m s s = (s.writeReg d.rd m).advanceTo s.pcPlus4 := by
  simp [endOfCycle, writeBack_eq, nextPc, State.advanceTo, State.pcPlus4, hw, hp]

theorem endOfCycle_link (hw : c.wbSel = .pcPlus4) (hp : c.pcSrcTarget = true) :
    endOfCycle d c r m s s = (s.writeReg d.rd s.pcPlus4).advanceTo r := by
  simp [endOfCycle, writeBack_eq, nextPc, State.advanceTo, State.pcPlus4, hw, hp]

theorem endOfCycle_none (t : State) (hw : c.wbSel = .none) (ht : t.clock = s.clock) :
    endOfCycle d c r m s t = t.advanceTo (if c.pcSrcTarget then r else s.pcPlus4) := by
  simp [endOfCycle, writeBack_eq, nextPc, State.advanceTo, State.pcPlus4, hw, ht]

end

/-! ## OP, OP-IMM, LUI, AUIPC: the ALU result is written -/

/-- A cycle whose one result is the ALU's. -/
def retireAlu (rd : Reg) (s : State) : Except CycleEnd Word → Host.Outcome State Fault Refusal
  | .error e => answerOf s (.error e)
  | .ok v => retire rd v s.pcPlus4 s

theorem datapath_alu {w : Word} {k : OpClass} (s : State) (h : opClass (opcodeOf w) = some k)
    (hk : strictCheck s.params.strictFunct3 k (funct3Of w) = true) (hb : k ≠ .branch) (hl : k ≠ .load)
    (hst : k ≠ .store) (hw : (controlBundle k w).wbSel = .alu) (hp : (controlBundle k w).pcSrcTarget = false) :
    answerOf s (datapath w s) = retireAlu (decodedBundle k w s).rd s
      (aluOp s.params s.pc (aluCode (decodedBundle k w s))
        (operandA s.pc (decodedBundle k w s) (controlBundle k w))
        (operandB (decodedBundle k w s) (controlBundle k w))) := by
  have hd := decodeStage_accepted h s hk
  cases ha : aluOp s.params s.pc (aluCode (decodedBundle k w s))
      (operandA s.pc (decodedBundle k w s) (controlBundle k w))
      (operandB (decodedBundle k w s) (controlBundle k w)) with
  | error e => rw [datapath_aluError hd ha]; rfl
  | ok r =>
    rw [datapath_ok hd ha (branchUnit_passes h s hb _) (memoryStage_passes h s hl hst r), endOfCycle_alu r 0 s hw hp]
    rfl

/-- A division ends both designs alike. -/
theorem retireAlu_division (rd : Reg) (s : State) (res : Except Refusal Word) :
    retireAlu rd s (aluDivision res) = retireDivision rd res s := by
  cases res <;> rfl

/-- The ALU raises its fault on every code but the ten (`40_execute_cycle.md` R125). -/
theorem aluOp_illegal (p : Params) (pc : Word) {code : BitVec 10} (a b : Word)
    (h : code ∉ [0x000#10, 0x100#10, 0x001#10, 0x004#10, 0x005#10, 0x006#10, 0x007#10, 0x008#10, 0x00C#10,
      0x00E#10]) :
    aluOp p pc code a b = .error (.fault (.illegalAluOp pc code)) := by
  unfold aluOp
  split <;> simp_all

theorem execDecoded_op {w : Word} (s : State) (h : opClass (opcodeOf w) = some .op) :
    execDecoded s w (decode w) = retireAlu (rdOf w) s
      (aluOp s.params s.pc (functOp w) (s.readReg (rs1Of w)) (s.readReg (rs2Of w))) := by
  have hdec : decode w = decodeOp w := by simp only [decode, h]
  rw [hdec]
  unfold decodeOp
  split
  case h_11 =>
    rw [aluOp_illegal]
    · rfl
    · simp_all
  case h_9 hcode | h_10 hcode =>
    rw [hcode]
    exact (retireAlu_division _ s _).symm
  all_goals
    rename_i hcode
    rw [hcode]
    rfl

/-- The eight values of a funct3. -/
theorem funct3_cases : ∀ f3 : BitVec 3,
    f3 = 0#3 ∨ f3 = 1#3 ∨ f3 = 2#3 ∨ f3 = 3#3 ∨ f3 = 4#3 ∨ f3 = 5#3 ∨ f3 = 6#3 ∨ f3 = 7#3 := by
  decide

theorem execDecoded_opImm {w : Word} (s : State) (h : opClass (opcodeOf w) = some .opImm) :
    execDecoded s w (decode w) = retireAlu (rdOf w) s
      (aluOp s.params s.pc ((funct3Of w).setWidth 10) (s.readReg (rs1Of w)) (immI w)) := by
  have hdec : decode w = decodeOpImm w := by simp only [decode, h]
  rw [hdec, decodeOpImm]
  rcases funct3_cases (funct3Of w) with hf | hf | hf | hf | hf | hf | hf | hf <;>
  · rw [hf]
    rfl

theorem aluCode_of_usesFunct {w : Word} (s : State) {k : OpClass} (h : opClass (opcodeOf w) = some k)
    (hk : k = .op ∨ k = .opImm) : aluCode (decodedBundle k w s) = (decodedBundle k w s).funct := by
  rcases hk with rfl | rfl <;> simp [aluCode, aluUsesFunct, h]

theorem answerOf_datapath_op {w : Word} (s : State) (h : opClass (opcodeOf w) = some .op) :
    answerOf s (datapath w s) = execDecoded s w (decode w) := by
  rw [datapath_alu s h rfl nofun nofun nofun rfl rfl, aluCode_of_usesFunct s h (.inl rfl), execDecoded_op s h]
  rfl

theorem answerOf_datapath_opImm {w : Word} (s : State) (h : opClass (opcodeOf w) = some .opImm) :
    answerOf s (datapath w s) = execDecoded s w (decode w) := by
  rw [datapath_alu s h rfl nofun nofun nofun rfl rfl, aluCode_of_usesFunct s h (.inr rfl), execDecoded_opImm s h]
  rfl

/-- The U immediate masked out of the word is the field shifted into place (`30_encoding.md` R93). -/
theorem immU_eq_upperImm (w : Word) : immU w = upperImm (uField w) := by
  apply BitVec.eq_of_getLsbD_eq
  intro i hi
  simp only [immU, upperImm, uField, BitVec.getLsbD_append, BitVec.getLsbD_and]
  interval_cases i <;> simp

theorem answerOf_datapath_lui {w : Word} (s : State) (h : opClass (opcodeOf w) = some .lui) :
    answerOf s (datapath w s) = execDecoded s w (decode w) := by
  have hdec : decode w = .ok (.lui (rdOf w) (uField w)) := by simp only [decode, h]
  have hsum : aluAdd 0 (immU w) = upperImm (uField w) := by rw [immU_eq_upperImm, aluAdd]; exact BitVec.zero_add _
  rw [datapath_alu s h rfl nofun nofun nofun rfl rfl, aluOp_adds h s nofun nofun, hdec]
  exact congrArg (retire (rdOf w) · s.pcPlus4 s) hsum

theorem answerOf_datapath_auipc {w : Word} (s : State) (h : opClass (opcodeOf w) = some .auipc) :
    answerOf s (datapath w s) = execDecoded s w (decode w) := by
  have hdec : decode w = .ok (.auipc (rdOf w) (uField w)) := by simp only [decode, h]
  rw [datapath_alu s h rfl nofun nofun nofun rfl rfl, aluOp_adds h s nofun nofun, hdec]
  exact congrArg (fun b => retire (rdOf w) (aluAdd s.pc b) s.pcPlus4 s) (immU_eq_upperImm w)

/-! ## JAL, JALR: the link is written and the sum is the target -/

theorem datapath_jump {w : Word} {k : OpClass} (s : State) (h : opClass (opcodeOf w) = some k)
    (hk : strictCheck s.params.strictFunct3 k (funct3Of w) = true) (hj : k = .jal ∨ k = .jalr) :
    answerOf s (datapath w s) = retire (decodedBundle k w s).rd s.pcPlus4
      (aluAdd (operandA s.pc (decodedBundle k w s) (controlBundle k w))
        (operandB (decodedBundle k w s) (controlBundle k w))) s := by
  have hd := decodeStage_accepted h s hk
  rcases hj with rfl | rfl
  all_goals
    rw [datapath_ok hd (aluOp_adds h s nofun nofun _ _) (branchUnit_passes h s nofun _)
      (memoryStage_passes h s nofun nofun _), endOfCycle_link _ 0 s rfl rfl]
    rfl

theorem answerOf_datapath_jal {w : Word} (s : State) (h : opClass (opcodeOf w) = some .jal) :
    answerOf s (datapath w s) = execDecoded s w (decode w) := by
  have hdec : decode w = .ok (.jal (rdOf w) (jField w)) := by simp only [decode, h]
  rw [datapath_jump s h rfl (.inl rfl), hdec]
  rfl

theorem answerOf_datapath_jalr {w : Word} (s : State) (h : opClass (opcodeOf w) = some .jalr) :
    answerOf s (datapath w s) = execDecoded s w (decode w) := by
  have hdec : decode w = .ok (.jalr (rdOf w) (rs1Of w) (iField w) (funct3Of w)) := by simp only [decode, h]
  rw [hdec, execDecoded_ok, exec_jalr]
  cases hk : funct3Accepted s.params.strictFunct3 canonicalJalrFunct3 (funct3Of w) with
  | false =>
    rw [datapath_decodeError (decodeStage_notAccepted h s hk), execJalr, hk]
    rfl
  | true =>
    rw [datapath_jump s h hk (.inr rfl), execJalr, hk]
    rfl

/-! ## LOAD, STORE: the sum is the address -/

theorem answerOf_datapath_load {w : Word} (s : State) (h : opClass (opcodeOf w) = some .load) :
    answerOf s (datapath w s) = execDecoded s w (decode w) := by
  have hdec : decode w = .ok (.lw (rdOf w) (rs1Of w) (iField w) (funct3Of w)) := by simp only [decode, h]
  rw [hdec, execDecoded_ok, exec_lw]
  cases hk : funct3Accepted s.params.strictFunct3 canonicalWordFunct3 (funct3Of w) with
  | false =>
    rw [datapath_decodeError (decodeStage_notAccepted h s hk), execLw, hk]
    rfl
  | true =>
    have hd := decodeStage_accepted h s hk
    have ha := aluOp_adds h s nofun nofun (s.readReg (rs1Of w)) (immI w)
    have hb := branchUnit_passes h s nofun (controlBundle .load w)
    rw [execLw, hk]
    cases hr : s.memRead (s.basePlus (rs1Of w) (iField w)) with
    | error f =>
      have hm : memoryStage (decodedBundle .load w s) (s.basePlus (rs1Of w) (iField w)) s = .error (.fault f) := by
        simp [memoryStage, h, hr]
      rw [datapath_memoryError hd ha hb hm]
      rfl
    | ok v =>
      have hm : memoryStage (decodedBundle .load w s) (s.basePlus (rs1Of w) (iField w)) s = .ok (s, v) := by
        simp [memoryStage, h, hr]
      rw [datapath_ok hd ha hb hm, endOfCycle_mem _ v s rfl rfl]
      rfl

theorem answerOf_datapath_store {w : Word} (s : State) (h : opClass (opcodeOf w) = some .store) :
    answerOf s (datapath w s) = execDecoded s w (decode w) := by
  have hdec : decode w = .ok (.sw (rs2Of w) (rs1Of w) (sField w) (funct3Of w)) := by simp only [decode, h]
  rw [hdec, execDecoded_ok, exec_sw]
  cases hk : funct3Accepted s.params.strictFunct3 canonicalWordFunct3 (funct3Of w) with
  | false =>
    rw [datapath_decodeError (decodeStage_notAccepted h s hk), execSw, hk]
    rfl
  | true =>
    have hd := decodeStage_accepted h s hk
    have ha := aluOp_adds h s nofun nofun (s.readReg (rs1Of w)) (immS w)
    have hb := branchUnit_passes h s nofun (controlBundle .store w)
    have hdata : (decodedBundle .store w s).rs2val = s.readReg (rs2Of w) := rfl
    rw [execSw, hk]
    cases hr : s.memWrite (s.basePlus (rs1Of w) (sField w)) (s.readReg (rs2Of w)) with
    | error f =>
      have hm : memoryStage (decodedBundle .store w s) (s.basePlus (rs1Of w) (sField w)) s = .error (.fault f) := by
        simp [memoryStage, h, hdata, hr]
      rw [datapath_memoryError hd ha hb hm]
      rfl
    | ok t =>
      have hm : memoryStage (decodedBundle .store w s) (s.basePlus (rs1Of w) (sField w)) s = .ok (t, 0) := by
        simp [memoryStage, h, hdata, hr]
      have hclock : t.clock = s.clock := by rw [memWrite_ok hr, storeWord_clock]
      rw [datapath_ok hd ha hb hm, endOfCycle_none _ 0 s t rfl hclock]
      rfl

/-! ## BRANCH -/

theorem condNe_eq (a b : Word) : condNe a b = !condEq a b := by simp [condNe, condEq]
theorem condGe_eq (a b : Word) : condGe a b = !condLt a b := by simp [condGe, condLt, ← decide_not]
theorem condGeu_eq (a b : Word) : condGeu a b = !condLtu a b := by simp [condGeu, condLtu, ← decide_not]

/-- The table of the six conditions against their gate-level form (`40_execute_cycle.md` R128). -/
theorem branchTaken_eq_gates (f3 : BitVec 3) (a b : Word) (h2 : f3 ≠ 2#3) (h3 : f3 ≠ 3#3) :
    branchTaken f3 a b = some (branchTakenGates (f3.getLsbD 1) f3 a b) := by
  rcases funct3_cases f3 with rfl | rfl | rfl | rfl | rfl | rfl | rfl | rfl
  case inr.inr.inl => exact absurd rfl h2
  case inr.inr.inr.inl => exact absurd rfl h3
  all_goals simp [branchTaken, branchTakenGates, condNe_eq, condGe_eq, condGeu_eq]

/-- A branch word whose funct3 is a condition. -/
theorem execDecoded_branch {w : Word} (s : State) (h : opClass (opcodeOf w) = some .branch) {taken : Bool}
    (ht : branchTaken (funct3Of w) (s.readReg (rs1Of w)) (s.readReg (rs2Of w)) = some taken) :
    execDecoded s w (decode w) = retireBranch taken (bField w) s := by
  have hdec : decode w = decodeBranch w := by simp only [decode, h]
  rw [hdec, decodeBranch]
  rcases funct3_cases (funct3Of w) with hf | hf | hf | hf | hf | hf | hf | hf
  all_goals rw [hf] at ht ⊢
  case inr.inr.inl => simp [branchTaken] at ht
  case inr.inr.inr.inl => simp [branchTaken] at ht
  all_goals
    rw [← Option.some.inj ht]
    rfl

/-- A branch word whose funct3 is none. -/
theorem execDecoded_branch_illegal {w : Word} (s : State) (h : opClass (opcodeOf w) = some .branch)
    (hf : funct3Of w = 2#3 ∨ funct3Of w = 3#3) :
    execDecoded s w (decode w) = raise (.illegalBranchCond s.pc (funct3Of w)) s := by
  have hdec : decode w = decodeBranch w := by simp only [decode, h]
  rw [hdec, decodeBranch]
  rcases hf with hf | hf <;>
  · rw [hf]
    rfl

/-- The branch unit takes its funct3 back from the ten-bit code. -/
theorem extract_setWidth_funct3 : ∀ f3 : BitVec 3, (f3.setWidth 10).extractLsb' 0 3 = f3 := by decide

/-- The branch unit on a branch word. -/
theorem branchUnit_branch {w : Word} (s : State) (h : opClass (opcodeOf w) = some .branch) :
    branchUnit s.pc (decodedBundle .branch w s) (controlBundle .branch w) =
      if funct3Of w = 2#3 ∨ funct3Of w = 3#3 then .error (.fault (.illegalBranchCond s.pc (funct3Of w)))
      else .ok { controlBundle .branch w with
        pcSrcTarget := branchTakenGates ((funct3Of w).getLsbD 1) (funct3Of w) (s.readReg (rs1Of w))
          (s.readReg (rs2Of w)) } := by
  have hfunct : (decodedBundle .branch w s).funct.extractLsb' 0 3 = funct3Of w := extract_setWidth_funct3 _
  have hunsigned : (controlBundle .branch w).brUnsigned = (funct3Of w).getLsbD 1 := by
    simp [controlBundle, funct3Of]
  simp only [branchUnit, isBranch, decodedBundle_opcode, h, hfunct, hunsigned]
  simp only [beq_self_eq_true, if_true, Bool.or_eq_true, beq_iff_eq]
  rfl

theorem answerOf_datapath_branch {w : Word} (s : State) (h : opClass (opcodeOf w) = some .branch) :
    answerOf s (datapath w s) = execDecoded s w (decode w) := by
  have hd := decodeStage_accepted h s rfl
  have ha := aluOp_adds h s nofun nofun s.pc (immB w)
  have hb := branchUnit_branch s h
  by_cases hf : funct3Of w = 2#3 ∨ funct3Of w = 3#3
  · rw [if_pos hf] at hb
    rw [datapath_branchError hd ha hb, execDecoded_branch_illegal s h hf]
    rfl
  · rw [if_neg hf] at hb
    rw [not_or] at hf
    rw [datapath_ok hd ha hb (memoryStage_passes h s nofun nofun _), endOfCycle_none _ 0 s s rfl rfl,
      execDecoded_branch s h (branchTaken_eq_gates _ _ _ hf.1 hf.2)]
    rfl

/-! ## All words -/

/-- In every cycle the datapath answers as the instruction-by-instruction step does. -/
theorem answerOf_datapath (w : Word) (s : State) : answerOf s (datapath w s) = execDecoded s w (decode w) := by
  cases h : opClass (opcodeOf w) with
  | none =>
    have hdec : decode w = .error .illegalOpcode := by simp only [decode, h]
    have hd : decodeStage w s = .error (.fault (.illegalOpcode s.pc w)) := by simp only [decodeStage, h]
    rw [datapath_decodeError hd, hdec]
    rfl
  | some k =>
    cases k with
    | op => exact answerOf_datapath_op s h
    | opImm => exact answerOf_datapath_opImm s h
    | load => exact answerOf_datapath_load s h
    | jalr => exact answerOf_datapath_jalr s h
    | store => exact answerOf_datapath_store s h
    | branch => exact answerOf_datapath_branch s h
    | jal => exact answerOf_datapath_jal s h
    | lui => exact answerOf_datapath_lui s h
    | auipc => exact answerOf_datapath_auipc s h

/-- The step of a core that fetches `w` is the datapath's cycle on `w`. -/
theorem step_of_ifetch_ok {s : State} {w : Word} (hs : s.Fetches) (hw : s.ifetch = .ok w) :
    step s = answerOf s (datapath w s) := by
  have hf := fetchInstr_of_ifetch s w hw
  rw [answerOf_datapath]
  cases hd : decode w with
  | error e => exact step_of_fetchInstr_error hs (by rw [hf, hd])
  | ok i => exact step_of_fetchInstr_ok hs (by rw [hf, hd])

/-! ## A cycle of the datapath that completes leaves `run` -/

theorem writeBack_run (d : Decoded) (c : Control) (r m l : Word) (s : State) :
    (writeBack d c r m l s).run = s.run := by
  rw [writeBack_eq]
  cases c.wbSel <;> simp

theorem memoryStage_run {d : Decoded} {r m : Word} {s t : State} (h : memoryStage d r s = .ok (t, m)) :
    t.run = s.run := by
  unfold memoryStage at h
  split at h
  · split at h
    · simp at h
    · simp_all
  · split at h
    · split at h
      · simp at h
      · next u hw =>
        obtain rfl : u = t := (Prod.mk.inj (Except.ok.inj h)).1
        rw [memWrite_ok hw, storeWord_run]
    · simp_all

theorem datapath_run {w : Word} {s t : State} (h : datapath w s = .ok t) : t.run = s.run := by
  unfold datapath at h
  split at h
  · simp at h
  split at h
  · simp at h
  split at h
  · simp at h
  split at h
  · simp at h
  next hm =>
    rw [← Except.ok.inj h]
    exact (writeBack_run _ _ _ _ _ _).trans (memoryStage_run hm)

end Sys2Proof.Machine
end

section
/-! The obligations of `10_state.md`. -/

open Sys2Proof Sys2Proof.Machine

/-- Settles O21: an instruction keeps the invariant by the effect it has, every other step changes `run` at most. -/
theorem stepKeepsTheInvariant : Obligations.StepKeepsTheInvariant := by
  intro s t hs h
  cases step_effect s t h with
  | ended => exact hs
  | halts => exact inv_withRun hs _
  | fetchFault f => exact inv_withRun hs _
  | executes i t _ _ _ he => exact inv_exec hs he

/-- Settles O15: a running core halts, aborts at the fetch, or answers as the datapath does. -/
theorem runTransitions : Obligations.RunTransitions := by
  intro s t hr h
  by_cases hx : s.readReg 31 = 0xDEADBEEF#32
  · rw [step_of_sentinel hr hx] at h
    obtain rfl := Host.Outcome.next.inj h
    exact ⟨iff_of_true rfl hx, fun f => iff_of_false nofun fun hf => hf.1 hx⟩
  · have hs : s.Fetches := ⟨hr, hx⟩
    simp only [hx, iff_false, not_false_eq_true, ne_eq, true_and]
    cases hf : s.ifetch with
    | error f =>
      rw [step_of_ifetch_error hs hf] at h
      obtain rfl := Host.Outcome.next.inj h
      simp
    | ok w =>
      rw [step_of_ifetch_ok hs hf] at h
      cases hd : datapath w s with
      | error e =>
        rw [hd] at h
        cases e with
        | fault f =>
          obtain rfl := Host.Outcome.next.inj h
          simp [hd]
        | refusal r => simp [answerOf] at h
      | ok u =>
        rw [hd] at h
        obtain rfl := Host.Outcome.next.inj h
        simp [hd, datapath_run hd, hr]

/-- Settles O19: a refusal needs a parameter that is not the default. -/
theorem defaultStepsAlwaysAnswer : Obligations.DefaultStepsAlwaysAnswer := by
  intro s hdiv hstrict
  by_cases hr : s.run = .running
  · by_cases hx : s.readReg 31 = 0xDEADBEEF#32
    · exact ⟨_, step_of_sentinel hr hx⟩
    · cases hf : s.fetchInstr with
      | error f => exact ⟨_, step_of_fetchInstr_error ⟨hr, hx⟩ hf⟩
      | ok i =>
        rw [step_of_fetchInstr_ok ⟨hr, hx⟩ hf]
        exact exec_next_of_defaults i hdiv hstrict
  · exact ⟨s, step_ended s hr⟩

/-- Settles O22: a store marks what it writes, and no other step writes data memory. -/
theorem stepKeepsWrittenIsTouched : Obligations.StepKeepsWrittenIsTouched := by
  intro s t hs h
  cases step_effect s t h with
  | ended => exact hs
  | halts => exact hs
  | fetchFault => exact hs
  | executes i t _ _ _ he => exact writtenIsTouched_exec hs he

/-- Settles O23, by induction on the run. -/
theorem registerZeroAlwaysReadsZero : Obligations.RegisterZeroAlwaysReadsZero :=
  ⟨readReg_reset 0, writeReg_zero, fun _ _ h => readReg_zero_of_reaches h,
    fun _ h => (readReg_zero_of_reaches h).trans (readReg_reset 0)⟩

/-- Settles O24, from the effect of an instruction. -/
theorem onlyTheDestinationIsWritten : Obligations.OnlyTheDestinationIsWritten :=
  fun _ _ _ he _ hr => readReg_exec_of_not_destination he hr

/-- Settles O25: an instruction takes the same action in both states. -/
theorem onlyTheSourcesAreRead : Obligations.OnlyTheSourcesAreRead := by
  intro i s t y _ hy he
  obtain ⟨a, hfits, ha⟩ := actsOnInputs i s
  rw [ha s (.refl i s)] at he
  rw [ha { s with x := y } ⟨rfl, rfl, rfl, rfl, hy, fun _ => rfl, fun _ => rfl⟩]
  cases a with
  | stays => exact hfits.elim
  | halts => exact hfits.elim
  | refuses r => simp [Action.apply] at he
  | aborts f =>
    obtain rfl := Host.Outcome.next.inj he
    exact ⟨_, rfl, rfl, fun _ _ _ hrun => by simp at hrun⟩
  | result rd v target =>
    obtain rfl := Host.Outcome.next.inj he
    refine ⟨_, rfl, ?_, fun rd' hd hne _ => ?_⟩
    · simp [State.advanceTo]
    · obtain rfl : rd = rd' := Option.some.inj (hfits.1.symm.trans hd)
      have hwritten : rd = rd ∧ rd ≠ 0 := ⟨rfl, hne⟩
      rw [readReg_advanceTo, readReg_advanceTo, readReg_writeReg, readReg_writeReg, if_pos hwritten, if_pos hwritten]
  | goes target =>
    obtain rfl := Host.Outcome.next.inj he
    exact ⟨_, rfl, rfl, fun rd hd => by simp [hfits.1] at hd⟩
  | stores a v target =>
    obtain rfl := Host.Outcome.next.inj he
    obtain ⟨_, _, _, _, rfl, -⟩ := hfits
    exact ⟨_, rfl, rfl, nofun⟩

/-- Settles O26: an action that retires goes where the table has it. -/
theorem nextPcTable : Obligations.NextPcTable := by
  intro i s t _ he ht
  obtain ⟨a, hfits, ha⟩ := exec_action i s
  rw [ha] at he
  cases a with
  | stays => exact hfits.elim
  | halts => exact hfits.elim
  | refuses r => simp [Action.apply] at he
  | aborts f =>
    obtain rfl := Host.Outcome.next.inj he
    simp at ht
  | result rd v target =>
    obtain rfl := Host.Outcome.next.inj he
    exact hfits.2
  | goes target =>
    obtain rfl := Host.Outcome.next.inj he
    exact hfits.2.2
  | stores a v target =>
    obtain rfl := Host.Outcome.next.inj he
    obtain ⟨_, _, _, _, rfl, -, -, rfl⟩ := hfits
    rfl

/-- Settles O27: a step takes the same action whatever the map holds, and only a store marks. -/
theorem touchedIsForReportingOnly : Obligations.TouchedIsForReportingOnly := by
  refine ⟨fun s t h a ha => touched_step h ha, fun s t w rs2 rs1 imm f3 hw hd h ht b => ?_, fun s t u h => ?_,
    fun s u r h => ?_⟩
  · rw [step_of_fetchesWord hw hd] at h
    rw [storeWord_of_sw_running h ht]
    exact mem_touchWord _ _ _
  all_goals
    obtain ⟨a, hs, ha⟩ := step_action s
    rw [hs] at h
    rw [ha { s with touched := u } ⟨rfl, rfl, rfl, rfl, rfl, rfl⟩]
  · exact apply_withTouched h u
  · rw [apply_refused h]
    rfl

/-- Settles O28: a step takes the same action whatever the clock holds. -/
theorem nothingDependsOnTheClock : Obligations.NothingDependsOnTheClock := by
  refine ⟨fun s t c h => ?_, fun s c r h => ?_⟩
  all_goals
    obtain ⟨a, hs, ha⟩ := step_action s
    rw [hs] at h
    rw [ha { s with clock := c } ⟨rfl, rfl, rfl, rfl, rfl, rfl⟩]
  · exact apply_withClock h c
  · rw [apply_refused h]
    rfl

/-- Settles O52: the cycle that writes a bad target retires, and the fetch of the next one raises the fault. -/
theorem badTargetFaultsAtTheNextFetch : Obligations.BadTargetFaultsAtTheNextFetch := by
  intro s t i hs he
  refine ⟨fun hi => (run_exec_of_not_accessesData hi he).trans hs, fun ht => ⟨clock_exec_of_running he ht, ?_⟩⟩
  intro hx
  have hfetches : t.Fetches := ⟨ht, hx⟩
  exact ⟨fun ha => step_of_ifetch_error hfetches (ifetch_misaligned ha),
    fun ha hi => step_of_ifetch_error hfetches (ifetch_outOfRange ha hi)⟩

/-- Settles O1, field by field. -/
theorem resetLeavesEverythingZero : Obligations.ResetLeavesEverythingZero :=
  ⟨rfl, rfl, rfl, readReg_reset, fun _ => rfl, fun _ => rfl, fun _ => List.not_mem_nil, rfl⟩

/-- Settles O2: the memories and the touched map are empty lists at reset. -/
theorem resetMeetsTheInvariant : Obligations.ResetMeetsTheInvariant where
  left :=
    { zeroRegister := readReg_reset 0
      imemCanonical := rfl
      imemInside := fun _ h => absurd h List.not_mem_nil
      dmemCanonical := rfl
      dmemInside := fun _ h => absurd h List.not_mem_nil
      touchedRising := .nil
      touchedInside := fun _ h => absurd h List.not_mem_nil }
  right := fun _ h => absurd rfl h

/-- Settles O14, by induction on the run. -/
theorem endedRunsNeverChange : Obligations.EndedRunsNeverChange :=
  fun _ _ hs h => eq_of_reaches_of_ended hs h
end

section
/-! SUPPORT. The memory accesses (`20_memory.md`): the address, a load after a store, what LW and SW do once their
funct3 is accepted, and what reaches neither memory. -/

namespace Sys2Proof.Machine

/-! ## The effective address -/

/-- A word plus a sign-extended displacement is the sum of integers modulo 2^32 (`00_scope.md` R7, decision D15). -/
theorem toNat_add_signExtend {w : Nat} (hw : w ≤ 32) (a : Word) (d : BitVec w) :
    ((a + d.signExtend 32).toNat : Int) = (a.toNat + d.toInt) % 2 ^ 32 := by
  have hd : d.toInt = ((d.signExtend 32).toNat : Int).bmod (2 ^ 32) := by
    rw [← BitVec.toInt_signExtend_of_le hw, BitVec.toInt_eq_toNat_bmod]
  rw [BitVec.toNat_add, hd, Int.natCast_emod, Nat.cast_add]
  exact Int.ModEq.add_left _ Int.bmod_emod.symm

@[simp] theorem basePlus_advanceTo (s : State) (target : Word) (rs1 : Reg) (imm : BitVec 12) :
    (s.advanceTo target).basePlus rs1 imm = s.basePlus rs1 imm := rfl

@[simp] theorem basePlus_storeWord (s : State) (a : Nat) (v : Word) (rs1 : Reg) (imm : BitVec 12) :
    (s.storeWord a v).basePlus rs1 imm = s.basePlus rs1 imm := rfl

/-! ## A load after a store -/

@[simp] theorem memRead_advanceTo (s : State) (target a : Word) : (s.advanceTo target).memRead a = s.memRead a := rfl

/-- A load at the address of a store that succeeds reads the word stored. -/
theorem memRead_storeWord_same {s : State} {a : Word} (ha : a.toNat % 4 = 0)
    (hi : a.toNat + 3 < s.params.dmemSize) (v : Word) : (s.storeWord a.toNat v).memRead a = .ok v := by
  rcases memRead_cases (s.storeWord a.toNat v) a with ⟨hn, _⟩ | ⟨_, hge, _⟩ | ⟨_, _, hread⟩
  · exact absurd ha hn
  · rw [storeWord_params] at hge
    omega
  · rw [hread, storeWord_dmem, readWord_writeWord_same]

/-- A load at another address than that of an aligned store answers as before the store: two aligned words that
differ do not overlap, and the checks look at the address and the size alone. -/
theorem memRead_storeWord_apart {s : State} {a b : Word} (ha : a.toNat % 4 = 0) (hne : a ≠ b) (v : Word) :
    (s.storeWord a.toNat v).memRead b = s.memRead b := by
  have hne : a.toNat ≠ b.toNat := mt BitVec.eq_of_toNat_eq hne
  by_cases hb : wordAligned b = true
  · have hb' := (wordAligned_iff b).mp hb
    simp only [State.memRead, storeWord_params, storeWord_dmem,
      readWord_writeWord_apart s.dmem a.toNat b.toNat v (by omega)]
  · simp [State.memRead, hb]

/-! ## LW and SW with an accepted funct3 -/

section
variable {rd rs1 rs2 : Reg} {imm : BitVec 12} {f3 : BitVec 3} {s t : State}
  (hf3 : s.params.strictFunct3 = false ∨ f3 = 2#3)
include hf3

theorem exec_lw_of_fault {f : Fault} (h : s.memRead (s.basePlus rs1 imm) = .error f) :
    exec (.lw rd rs1 imm f3) s = abortOf f s := by
  rw [exec_lw, execLw_accepted _ _ _ _ _ hf3, h]
  rfl

theorem exec_lw_of_read {v : Word} (h : s.memRead (s.basePlus rs1 imm) = .ok v) :
    exec (.lw rd rs1 imm f3) s = retire rd v s.pcPlus4 s := by
  rw [exec_lw, execLw_accepted _ _ _ _ _ hf3, h]

theorem exec_sw_of_fault {f : Fault} (h : s.memWrite (s.basePlus rs1 imm) (s.readReg rs2) = .error f) :
    exec (.sw rs2 rs1 imm f3) s = abortOf f s := by
  rw [exec_sw, execSw_accepted _ _ _ _ _ hf3, h]
  rfl

theorem exec_sw_of_write (h : s.memWrite (s.basePlus rs1 imm) (s.readReg rs2) = .ok t) :
    exec (.sw rs2 rs1 imm f3) s = .next (t.advanceTo s.pcPlus4) := by
  rw [exec_sw, execSw_accepted _ _ _ _ _ hf3, h]

/-- LW whose cycle retires writes what the read at its address gives. -/
theorem memRead_of_lw_running (he : exec (.lw rd rs1 imm f3) s = .next t) (ht : t.run = .running) (hrd : rd ≠ 0) :
    s.memRead (s.basePlus rs1 imm) = .ok (t.readReg rd) := by
  cases hread : s.memRead (s.basePlus rs1 imm) with
  | error f =>
    rw [exec_lw_of_fault hf3 hread] at he
    obtain rfl := Host.Outcome.next.inj he
    simp at ht
  | ok v =>
    rw [exec_lw_of_read hf3 hread] at he
    rw [(retire_next _ _ _ _ _).mp he, readReg_advanceTo, readReg_writeReg, if_pos ⟨rfl, hrd⟩]

/-- SW whose cycle retires has passed both checks of its address. -/
theorem address_of_sw_running (he : exec (.sw rs2 rs1 imm f3) s = .next t) (ht : t.run = .running) :
    (s.basePlus rs1 imm).toNat % 4 = 0 ∧ (s.basePlus rs1 imm).toNat + 3 < s.params.dmemSize := by
  have hfault : ∀ f : Fault, s.memWrite (s.basePlus rs1 imm) (s.readReg rs2) ≠ .error f := by
    intro f hw
    rw [exec_sw_of_fault hf3 hw] at he
    obtain rfl := Host.Outcome.next.inj he
    simp at ht
  rcases memWrite_cases s (s.basePlus rs1 imm) (s.readReg rs2) with ⟨_, hw⟩ | ⟨_, _, hw⟩ | ⟨ha, hi, _⟩
  · exact absurd hw (hfault _)
  · exact absurd hw (hfault _)
  · exact ⟨ha, hi⟩

end

/-! ## What reaches neither memory -/

/-- An instruction other than LW and SW leaves data memory and the touched map as they were. -/
theorem keepsData_exec_of_not_accessesData {i : Instr} {s t : State} (hi : i.accessesData = false)
    (he : exec i s = .next t) : KeepsData s t := by
  cases exec_effect i s t he with
  | result rd v target => exact ⟨by simp, by simp⟩
  | goes target => exact ⟨fun _ => rfl, fun _ => .rfl⟩
  | stores a v _ hm => simp [hi] at hm
  | aborts f hm => simp [hi] at hm

/-- `s` with another data memory of another size. -/
def State.withDataMemory (s : State) (m : Memory) (n : Nat) : State :=
  { s with dmem := m, params := { s.params with dmemSize := n } }

theorem writeReg_withDataMemory (s : State) (i : Reg) (v : Word) (m : Memory) (n : Nat) :
    (s.withDataMemory m n).writeReg i v = (s.writeReg i v).withDataMemory m n := by
  unfold State.writeReg
  split <;> rfl

/-- An instruction other than LW and SW does the same over every data memory (`20_memory.md` R56). -/
theorem exec_withDataMemory {i : Instr} {s t : State} (hi : i.accessesData = false) (he : exec i s = .next t)
    (m : Memory) (n : Nat) : exec i (s.withDataMemory m n) = .next (t.withDataMemory m n) := by
  obtain ⟨a, hfits, ha⟩ := actsOnInputs i s
  have hsame : SameInputs i s (s.withDataMemory m n) :=
    ⟨rfl, rfl, rfl, rfl, fun _ _ => rfl, by simp [hi], by simp [hi]⟩
  rw [ha s (.refl i s)] at he
  rw [ha _ hsame]
  cases a with
  | stays => exact hfits.elim
  | halts => exact hfits.elim
  | aborts f => simp [Action.Fits, hi] at hfits
  | refuses r => simp [Action.apply] at he
  | result rd v target =>
    obtain rfl := Host.Outcome.next.inj he
    rw [Action.apply, retire, writeReg_withDataMemory]
    rfl
  | goes target =>
    obtain rfl := Host.Outcome.next.inj he
    rfl
  | stores a v target =>
    obtain ⟨_, _, _, _, rfl, -⟩ := hfits
    exact nomatch hi

/-- No instruction writes the launch parameters. -/
theorem params_exec {i : Instr} {s t : State} (he : exec i s = .next t) : t.params = s.params := by
  cases exec_effect i s t he with
  | result rd v target => simp
  | goes target => rfl
  | stores a v => rfl
  | aborts f => rfl

/-- No instruction writes instruction memory. -/
theorem imem_exec {i : Instr} {s t : State} (he : exec i s = .next t) : t.imem = s.imem := by
  cases exec_effect i s t he with
  | result rd v target => simp
  | goes target => rfl
  | stores a v => rfl
  | aborts f => rfl

/-- No step writes instruction memory (`20_memory.md` R66). -/
theorem imem_step {s t : State} (h : step s = .next t) : t.imem = s.imem := by
  cases step_effect s t h with
  | ended => rfl
  | halts => rfl
  | fetchFault => rfl
  | executes i t _ _ _ he => exact imem_exec he

/-- No run writes instruction memory. -/
theorem imem_of_reaches {s t : State} (h : Reaches s t) : t.imem = s.imem :=
  keeps_of_reaches (P := fun u => u.imem = s.imem) (fun _ _ ih hu => (imem_step hu).trans ih) rfl h

end Sys2Proof.Machine
end

section
/-! The obligations of `20_memory.md`. -/

open Sys2Proof Sys2Proof.Machine

/-- Settles O29: no run writes instruction memory, and a fetch depends on nothing else but `pc`. -/
theorem storesNeverReachInstructionMemory : Obligations.StoresNeverReachInstructionMemory := by
  intro s t h
  have himem := imem_of_reaches h
  exact ⟨fun a => by rw [himem], fun p => by simp only [State.ifetch, himem]⟩

/-- Settles O30: every other instruction takes an action that data memory has no part in; LW and SW end as their
access does. -/
theorem memoryStageOnlyForLoadsAndStores : Obligations.MemoryStageOnlyForLoadsAndStores := by
  refine ⟨fun i s t hi he => ?_, fun s rd rs1 imm f3 hf3 => ?_, fun s rs2 rs1 imm f3 hf3 => ?_⟩
  · refine ⟨run_exec_of_not_accessesData hi he, keepsData_exec_of_not_accessesData hi he, fun m n => ?_⟩
    refine (exec_withDataMemory hi he m n).trans ?_
    rw [State.withDataMemory, params_exec he]
  · refine ⟨fun f hf => exec_lw_of_fault hf3 hf, fun v hv => ?_⟩
    rw [exec_lw_of_read hf3 hv]
    exact retire_resultIs rd v s.pcPlus4 s
  · refine ⟨fun f hf => exec_sw_of_fault hf3 hf, fun t hw => ?_⟩
    rw [exec_sw_of_write hf3 hw, memWrite_ok hw]
    rfl

/-- Settles O47: a store that retires has passed the checks of an aligned word, so a load of the same word reads it
and a load of another word does not overlap it. -/
theorem loadReturnsTheLastStore : Obligations.LoadReturnsTheLastStore := by
  intro s t rs2 rs1 rd rb imm disp _ he ht
  obtain ⟨ha, hi⟩ := address_of_sw_running (.inr rfl) he ht
  obtain rfl := storeWord_of_sw_running he ht
  refine ⟨fun heq => ?_, fun hne => ?_, fun u hu hrun hrd => memRead_of_lw_running (.inr rfl) hu hrun hrd⟩
  · rw [← heq, memRead_advanceTo, memRead_storeWord_same ha hi]
  · rw [basePlus_advanceTo, basePlus_storeWord] at hne ⊢
    rw [memRead_advanceTo, memRead_storeWord_apart ha hne]

/-- Settles O16: the fetch of the cycle faults, by alignment before range. -/
theorem badFetchAborts : Obligations.BadFetchAborts := by
  intro s hs
  exact ⟨fun ha => step_of_ifetch_error hs (ifetch_misaligned ha),
    fun ha hi => step_of_ifetch_error hs (ifetch_outOfRange ha hi)⟩

/-- Settles O45: the base plus the sign-extended displacement, as integers. -/
theorem effectiveAddress : Obligations.EffectiveAddress := by
  intro s rs1 imm
  rw [State.basePlus, sext12]
  exact toNat_add_signExtend (by decide) (s.readReg rs1) imm
end

section
/-! SUPPORT. The decoder by rows of the opcode table (`30_encoding.md` R95): a word that matches the row of an
instruction decodes to that instruction with the word's own operands, and only such a word does. Both round trips
follow from this and from the fields of an encoded word. -/

namespace Sys2Proof

/-- The instruction of the same row whose operands are the fields of `w` (`30_encoding.md` R81, R89 to R93). -/
def Instr.withFieldsOf (i : Instr) (w : Word) : Instr :=
  match i with
  | .add _ _ _ => .add (rdOf w) (rs1Of w) (rs2Of w)
  | .sub _ _ _ => .sub (rdOf w) (rs1Of w) (rs2Of w)
  | .sll _ _ _ => .sll (rdOf w) (rs1Of w) (rs2Of w)
  | .xor _ _ _ => .xor (rdOf w) (rs1Of w) (rs2Of w)
  | .srl _ _ _ => .srl (rdOf w) (rs1Of w) (rs2Of w)
  | .or _ _ _ => .or (rdOf w) (rs1Of w) (rs2Of w)
  | .and _ _ _ => .and (rdOf w) (rs1Of w) (rs2Of w)
  | .mul _ _ _ => .mul (rdOf w) (rs1Of w) (rs2Of w)
  | .div _ _ _ => .div (rdOf w) (rs1Of w) (rs2Of w)
  | .rem _ _ _ => .rem (rdOf w) (rs1Of w) (rs2Of w)
  | .addi _ _ _ => .addi (rdOf w) (rs1Of w) (iField w)
  | .slli _ _ _ => .slli (rdOf w) (rs1Of w) (iField w)
  | .xori _ _ _ => .xori (rdOf w) (rs1Of w) (iField w)
  | .srli _ _ _ => .srli (rdOf w) (rs1Of w) (iField w)
  | .ori _ _ _ => .ori (rdOf w) (rs1Of w) (iField w)
  | .andi _ _ _ => .andi (rdOf w) (rs1Of w) (iField w)
  | .lw _ _ _ _ => .lw (rdOf w) (rs1Of w) (iField w) (funct3Of w)
  | .sw _ _ _ _ => .sw (rs2Of w) (rs1Of w) (sField w) (funct3Of w)
  | .beq _ _ _ => .beq (rs1Of w) (rs2Of w) (bField w)
  | .bne _ _ _ => .bne (rs1Of w) (rs2Of w) (bField w)
  | .blt _ _ _ => .blt (rs1Of w) (rs2Of w) (bField w)
  | .bge _ _ _ => .bge (rs1Of w) (rs2Of w) (bField w)
  | .bltu _ _ _ => .bltu (rs1Of w) (rs2Of w) (bField w)
  | .bgeu _ _ _ => .bgeu (rs1Of w) (rs2Of w) (bField w)
  | .jal _ _ => .jal (rdOf w) (jField w)
  | .jalr _ _ _ _ => .jalr (rdOf w) (rs1Of w) (iField w) (funct3Of w)
  | .lui _ _ => .lui (rdOf w) (uField w)
  | .auipc _ _ => .auipc (rdOf w) (uField w)

theorem row_withFieldsOf (i : Instr) (w : Word) :
    rowMask (i.withFieldsOf w) = rowMask i ∧ rowMatch (i.withFieldsOf w) = rowMatch i := by
  cases i <;> exact ⟨rfl, rfl⟩

/-! ## The fields a mask keeps -/

section
variable {w m v : Word} (h : w &&& m = v)
include h

theorem opcodeOf_of_masked (hm : opcodeOf m = BitVec.allOnes 7) : opcodeOf w = opcodeOf v := by
  have hand : opcodeOf (w &&& m) = opcodeOf w &&& opcodeOf m := BitVec.extractLsb'_and
  rw [← h, hand, hm, BitVec.and_allOnes]

theorem funct3Of_of_masked (hm : funct3Of m = BitVec.allOnes 3) : funct3Of w = funct3Of v := by
  have hand : funct3Of (w &&& m) = funct3Of w &&& funct3Of m := BitVec.extractLsb'_and
  rw [← h, hand, hm, BitVec.and_allOnes]

theorem funct7Of_of_masked (hm : funct7Of m = BitVec.allOnes 7) : funct7Of w = funct7Of v := by
  have hand : funct7Of (w &&& m) = funct7Of w &&& funct7Of m := BitVec.extractLsb'_and
  rw [← h, hand, hm, BitVec.and_allOnes]

theorem functOp_of_masked (h3 : funct3Of m = BitVec.allOnes 3) (h7 : funct7Of m = BitVec.allOnes 7) :
    functOp w = functOp v := by
  rw [functOp, functOp, funct3Of_of_masked h h3, funct7Of_of_masked h h7]

end

/-! ## The decoder, one rule for each opcode -/

section
variable {w : Word}

theorem decode_op (h : opcodeOf w = 0x33#7) : decode w = decodeOp w := by rw [decode, h]; rfl
theorem decode_opImm (h : opcodeOf w = 0x13#7) : decode w = decodeOpImm w := by rw [decode, h]; rfl
theorem decode_branch (h : opcodeOf w = 0x63#7) : decode w = decodeBranch w := by rw [decode, h]; rfl
theorem decode_load (h : opcodeOf w = 0x03#7) :
    decode w = .ok (.lw (rdOf w) (rs1Of w) (iField w) (funct3Of w)) := by rw [decode, h]; rfl
theorem decode_store (h : opcodeOf w = 0x23#7) :
    decode w = .ok (.sw (rs2Of w) (rs1Of w) (sField w) (funct3Of w)) := by rw [decode, h]; rfl
theorem decode_jalr (h : opcodeOf w = 0x67#7) :
    decode w = .ok (.jalr (rdOf w) (rs1Of w) (iField w) (funct3Of w)) := by rw [decode, h]; rfl
theorem decode_jal (h : opcodeOf w = 0x6F#7) : decode w = .ok (.jal (rdOf w) (jField w)) := by rw [decode, h]; rfl
theorem decode_lui (h : opcodeOf w = 0x37#7) : decode w = .ok (.lui (rdOf w) (uField w)) := by rw [decode, h]; rfl
theorem decode_auipc (h : opcodeOf w = 0x17#7) : decode w = .ok (.auipc (rdOf w) (uField w)) := by
  rw [decode, h]; rfl

end

/-- A word that matches a row decodes to the row's instruction with the word's operands. -/
theorem decode_of_row {w : Word} {i : Instr} (h : w &&& rowMask i = rowMatch i) :
    decode w = .ok (i.withFieldsOf w) := by
  cases i
  all_goals
    simp only [rowMask, rowMatch] at h
    have hop := opcodeOf_of_masked h rfl
  case add | sub | sll | xor | srl | or | and | mul | div | rem =>
    rw [decode_op hop, decodeOp, functOp_of_masked h rfl rfl]
    rfl
  case addi | slli | xori | srli | ori | andi =>
    rw [decode_opImm hop, decodeOpImm, funct3Of_of_masked h rfl]
    rfl
  case beq | bne | blt | bge | bltu | bgeu =>
    rw [decode_branch hop, decodeBranch, funct3Of_of_masked h rfl]
    rfl
  case lw => exact decode_load hop
  case sw => exact decode_store hop
  case jalr => exact decode_jalr hop
  case jal => exact decode_jal hop
  case lui => exact decode_lui hop
  case auipc => exact decode_auipc hop

/-- The word of an instruction matches the instruction's row. -/
theorem row_encode (i : Instr) : encode i &&& rowMask i = rowMatch i := by
  cases i with
  | add => exact Laws.TableRow.add _ _ _
  | sub => exact Laws.TableRow.sub _ _ _
  | sll => exact Laws.TableRow.sll _ _ _
  | xor => exact Laws.TableRow.xor _ _ _
  | srl => exact Laws.TableRow.srl _ _ _
  | or => exact Laws.TableRow.or _ _ _
  | and => exact Laws.TableRow.and _ _ _
  | mul => exact Laws.TableRow.mul _ _ _
  | div => exact Laws.TableRow.div _ _ _
  | rem => exact Laws.TableRow.rem _ _ _
  | addi => exact Laws.TableRow.addi _ _ _
  | slli => exact Laws.TableRow.slli _ _ _
  | xori => exact Laws.TableRow.xori _ _ _
  | srli => exact Laws.TableRow.srli _ _ _
  | ori => exact Laws.TableRow.ori _ _ _
  | andi => exact Laws.TableRow.andi _ _ _
  | lw => exact Laws.TableRow.lw _ _ _ _
  | sw => exact Laws.TableRow.sw _ _ _ _
  | beq => exact Laws.TableRow.beq _ _ _
  | bne => exact Laws.TableRow.bne _ _ _
  | blt => exact Laws.TableRow.blt _ _ _
  | bge => exact Laws.TableRow.bge _ _ _
  | bltu => exact Laws.TableRow.bltu _ _ _
  | bgeu => exact Laws.TableRow.bgeu _ _ _
  | jal => exact Laws.TableRow.jal _ _
  | jalr => exact Laws.TableRow.jalr _ _ _ _
  | lui => exact Laws.TableRow.lui _ _
  | auipc => exact Laws.TableRow.auipc _ _

/-- The operands of a well-formed instruction are the fields of its word (`30_encoding.md` R110). -/
theorem withFieldsOf_encode {i : Instr} (h : i.wellFormed = true) : i.withFieldsOf (encode i) = i := by
  cases i with
  | beq _ _ off | bne _ _ off | blt _ _ off | bge _ _ off | bltu _ _ off | bgeu _ _ off =>
    simp [Instr.withFieldsOf, encode, bField_encB _ _ _ _ _ h]
  | jal _ off => simp [Instr.withFieldsOf, encode, jField_encJ _ _ _ h]
  | _ => simp [Instr.withFieldsOf, encode]

/-! ## Back from the word -/

section
variable {w : Word} {f7 op : BitVec 7} {f3 : BitVec 3} (hop : opcodeOf w = op)
include hop

theorem encR_of_fields (h7 : funct7Of w = f7) (h3 : funct3Of w = f3) :
    encR f7 (rs2Of w) (rs1Of w) f3 (rdOf w) op = w := by
  rw [← h7, ← h3, ← hop, encR_fields]

theorem encI_of_fields (h3 : funct3Of w = f3) : encI (iField w) (rs1Of w) f3 (rdOf w) op = w := by
  rw [← h3, ← hop, encI_fields]

theorem encS_of_fields (h3 : funct3Of w = f3) : encS (sField w) (rs2Of w) (rs1Of w) f3 op = w := by
  rw [← h3, ← hop, encS_fields]

theorem encB_of_fields (h3 : funct3Of w = f3) : encB (bField w) (rs2Of w) (rs1Of w) f3 op = w := by
  rw [← h3, ← hop, encB_fields]

theorem encU_of_fields : encU (uField w) (rdOf w) op = w := by rw [← hop, encU_fields]

theorem encJ_of_fields : encJ (jField w) (rdOf w) op = w := by rw [← hop, encJ_fields]

end

/-- A word that matches a row is the word of the row's instruction with its operands: no bit is dropped. -/
theorem encode_withFieldsOf {w : Word} {i : Instr} (h : w &&& rowMask i = rowMatch i) :
    encode (i.withFieldsOf w) = w := by
  cases i
  all_goals
    simp only [rowMask, rowMatch] at h
    have hop := opcodeOf_of_masked h rfl
  case add | sub | sll | xor | srl | or | and | mul | div | rem =>
    exact encR_of_fields hop (funct7Of_of_masked h rfl) (funct3Of_of_masked h rfl)
  case addi | slli | xori | srli | ori | andi => exact encI_of_fields hop (funct3Of_of_masked h rfl)
  case beq | bne | blt | bge | bltu | bgeu => exact encB_of_fields hop (funct3Of_of_masked h rfl)
  case lw | jalr => exact encI_of_fields hop rfl
  case sw => exact encS_of_fields hop rfl
  case jal => exact encJ_of_fields hop
  case lui | auipc => exact encU_of_fields hop

theorem evenBranchOffset_bField (w : Word) : evenBranchOffset (bField w) = true := by
  rw [evenBranchOffset, bField, BitVec.extractLsb'_append_eq_right]
  rfl

theorem evenJumpOffset_jField (w : Word) : evenJumpOffset (jField w) = true := by
  rw [evenJumpOffset, jField, BitVec.extractLsb'_append_eq_right]
  rfl

/-- The offsets of a word are even, as their bit 0 is implied (`30_encoding.md` R86, R88). -/
theorem wellFormed_withFieldsOf (i : Instr) (w : Word) : (i.withFieldsOf w).wellFormed = true := by
  cases i with
  | beq | bne | blt | bge | bltu | bgeu => exact evenBranchOffset_bField w
  | jal => exact evenJumpOffset_jField w
  | _ => rfl

/-! ## The row of a word that decodes -/

/-- The opcode of a class (`30_encoding.md` R82, decision D1). -/
def OpClass.opcode : OpClass → BitVec 7
  | .op => 0x33#7
  | .opImm => 0x13#7
  | .load => 0x03#7
  | .jalr => 0x67#7
  | .store => 0x23#7
  | .branch => 0x63#7
  | .jal => 0x6F#7
  | .lui => 0x37#7
  | .auipc => 0x17#7

theorem eq_opcode_of_opClass {op : BitVec 7} {k : OpClass} (h : opClass op = some k) : op = k.opcode := by
  unfold opClass at h
  split at h
  case h_10 => exact nomatch h
  all_goals exact Option.some.inj h ▸ rfl

/-- The instruction is the one of a row that the word matches, with the operands of the word. -/
structure RowOf (w : Word) (i : Instr) : Prop where
  row : w &&& rowMask i = rowMatch i
  operands : i.withFieldsOf w = i

theorem rowOf_decodeOp {w : Word} {i : Instr} (hop : opcodeOf w = 0x33#7) (h : decodeOp w = .ok i) : RowOf w i := by
  have h7 : funct7Of w = (functOp w).extractLsb' 3 7 := by rw [functOp, BitVec.extractLsb'_append_eq_left]
  have h3 : funct3Of w = (functOp w).extractLsb' 0 3 := by rw [functOp, BitVec.extractLsb'_append_eq_right]
  unfold decodeOp at h
  split at h
  case h_11 => exact nomatch h
  all_goals
    rename_i hcode
    obtain rfl := Except.ok.inj h
    refine ⟨?_, rfl⟩
    rw [rowMask, rowMatch, mask_funct7, hop, h7, h3, hcode]
    rfl

theorem rowOf_decodeOpImm {w : Word} {i : Instr} (hop : opcodeOf w = 0x13#7) (h : decodeOpImm w = .ok i) :
    RowOf w i := by
  unfold decodeOpImm at h
  split at h
  case h_7 => exact nomatch h
  all_goals
    rename_i hcode
    obtain rfl := Except.ok.inj h
    refine ⟨?_, rfl⟩
    rw [rowMask, rowMatch, mask_funct3, hop, hcode]
    rfl

theorem rowOf_decodeBranch {w : Word} {i : Instr} (hop : opcodeOf w = 0x63#7) (h : decodeBranch w = .ok i) :
    RowOf w i := by
  unfold decodeBranch at h
  split at h
  case h_7 => exact nomatch h
  all_goals
    rename_i hcode
    obtain rfl := Except.ok.inj h
    refine ⟨?_, rfl⟩
    rw [rowMask, rowMatch, mask_funct3, hop, hcode]
    rfl

/-- A word that decodes matches the row of its instruction and holds its operands. -/
theorem rowOf_of_decode {w : Word} {i : Instr} (h : decode w = .ok i) : RowOf w i := by
  cases hk : opClass (opcodeOf w) with
  | none => simp only [decode, hk, reduceCtorEq] at h
  | some k =>
    have hop := eq_opcode_of_opClass hk
    simp only [decode, hk] at h
    cases k with
    | op => exact rowOf_decodeOp hop h
    | opImm => exact rowOf_decodeOpImm hop h
    | branch => exact rowOf_decodeBranch hop h
    | load | jalr | store | jal | lui | auipc =>
      obtain rfl := Except.ok.inj h
      refine ⟨?_, rfl⟩
      rw [rowMask, rowMatch, mask_opcode, hop]
      rfl

end Sys2Proof
end

section
/-! SUPPORT. The implied low bit of a branch or JAL offset (`30_encoding.md` R86, R88), the words that are no
instruction (R100 to R102), and a refused funct3 (R103). -/

namespace Sys2Proof

/-! ## An offset's bit 0 is not in the word (`30_encoding.md` R86, R88) -/

/-- Clearing bit 0 leaves the bits above it. -/
theorem extractLsb'_implied_bit {n : Nat} (off : BitVec (n + 1)) (k len : Nat) (hk : 0 < k) :
    (off.extractLsb' 1 n ++ 0#1).extractLsb' k len = off.extractLsb' k len := by
  ext i hi
  simp only [BitVec.getElem_extractLsb', BitVec.getLsbD_append, BitVec.getLsbD_extractLsb']
  have h0 : ¬ k + i < 1 := by omega
  have h1 : 1 + (k + i - 1) = k + i := by omega
  by_cases hn : k + i - 1 < n
  · simp [h0, h1, hn]
  · simp [h0, hn, BitVec.getLsbD_of_ge off (k + i) (by omega)]

/-- A branch offset with its bit 0 cleared has the same word. -/
theorem encB_implied_bit (off : BitVec 13) (rs2 rs1 : Reg) (f3 : BitVec 3) (op : BitVec 7) :
    encB (off.extractLsb' 1 12 ++ 0#1) rs2 rs1 f3 op = encB off rs2 rs1 f3 op := by
  simp [encB, extractLsb'_implied_bit]

/-- A JAL offset with its bit 0 cleared has the same word. -/
theorem encJ_implied_bit (off : BitVec 21) (rd : Reg) (op : BitVec 7) :
    encJ (off.extractLsb' 1 20 ++ 0#1) rd op = encJ off rd op := by
  simp [encJ, extractLsb'_implied_bit]

/-- The offset of an encoded branch comes back with bit 0 clear. -/
theorem bField_encB_implied_bit (off : BitVec 13) (rs2 rs1 : Reg) (f3 : BitVec 3) (op : BitVec 7) :
    bField (encB off rs2 rs1 f3 op) = off.extractLsb' 1 12 ++ 0#1 := by
  rw [← encB_implied_bit, bField_encB]
  rw [evenBranchOffset, BitVec.extractLsb'_append_eq_right]
  rfl

/-- The offset of an encoded JAL comes back with bit 0 clear. -/
theorem jField_encJ_implied_bit (off : BitVec 21) (rd : Reg) (op : BitVec 7) :
    jField (encJ off rd op) = off.extractLsb' 1 20 ++ 0#1 := by
  rw [← encJ_implied_bit, jField_encJ]
  rw [evenJumpOffset, BitVec.extractLsb'_append_eq_right]
  rfl

/-! ## Words that are no instruction (`30_encoding.md` R100 to R102) -/

section
variable {w : Word}

theorem decode_illegalOpcode
    (h : opcodeOf w ∉ [0x33#7, 0x13#7, 0x03#7, 0x67#7, 0x23#7, 0x63#7, 0x6F#7, 0x37#7, 0x17#7]) :
    decode w = .error .illegalOpcode := by
  cases hk : opClass (opcodeOf w) with
  | none => simp only [decode, hk]
  | some k =>
    rw [eq_opcode_of_opClass hk] at h
    cases k <;> exact absurd (by decide) h

theorem decodeOp_illegal
    (h : functOp w ∉ [0x000#10, 0x100#10, 0x001#10, 0x004#10, 0x005#10, 0x006#10, 0x007#10, 0x008#10, 0x00C#10,
      0x00E#10]) :
    decodeOp w = .error (.illegalAluOp (functOp w)) := by
  unfold decodeOp
  split
  case h_11 => rfl
  all_goals
    rename_i hcode
    rw [hcode] at h
    exact absurd (by decide) h

theorem decodeBranch_illegal (h : funct3Of w = 2#3 ∨ funct3Of w = 3#3) :
    decodeBranch w = .error (.illegalBranchCond (funct3Of w)) := by
  rcases h with h | h <;>
  · rw [decodeBranch, h]
    rfl

end

namespace Machine

/-- The step of a word that is no instruction aborts with the fault of its decode error. -/
theorem step_of_decodeError {s : State} {w : Word} {e : DecodeError} (h : s.FetchesWord w) (hd : decode w = .error e) :
    step s = abortOf (faultOfDecodeError s.pc w e) s := by
  refine step_of_fetchInstr_error h.fetches ?_
  rw [fetchInstr_of_ifetch s w (ifetch_of_fetchesWord h), hd]

/-! ## A funct3 that `STRICT_FUNCT3 = true` refuses (`30_encoding.md` R103) -/

theorem funct3Accepted_strict_eq_false {strict : Bool} {c f3 : BitVec 3} (hs : strict = true) (hf : f3 ≠ c) :
    funct3Accepted strict c f3 = false := by
  simp [funct3Accepted, hs, hf]

section
variable {s : State} {f3 : BitVec 3} (hs : s.params.strictFunct3 = true) (rd rs1 rs2 : Reg) (imm : BitVec 12)
include hs

theorem exec_lw_refused (hf : f3 ≠ 2#3) : exec (.lw rd rs1 imm f3) s = .refused (.nonCanonicalFunct3 f3) := by
  rw [exec_lw, execLw, funct3Accepted_strict_eq_false (c := canonicalWordFunct3) hs hf]
  rfl

theorem exec_sw_refused (hf : f3 ≠ 2#3) : exec (.sw rs2 rs1 imm f3) s = .refused (.nonCanonicalFunct3 f3) := by
  rw [exec_sw, execSw, funct3Accepted_strict_eq_false (c := canonicalWordFunct3) hs hf]
  rfl

theorem exec_jalr_refused (hf : f3 ≠ 0#3) : exec (.jalr rd rs1 imm f3) s = .refused (.nonCanonicalFunct3 f3) := by
  rw [exec_jalr, execJalr, funct3Accepted_strict_eq_false (c := canonicalJalrFunct3) hs hf]
  rfl

end

end Machine

end Sys2Proof
end

section
/-! SUPPORT. The program source as a whole (`30_encoding.md` R108): its text falls into the lines it was written from,
and the loader puts the words of the good lines before whatever the rest of the text gives. -/

namespace Sys2Proof.Machine

/-- The characters of a line that is a word or blank. -/
def lineOf : Option Word → List Char
  | none => []
  | some w => binaryOf w

/-- The words of the lines before the rest, put before those of the rest; a fault or refusal of the rest stays. -/
def prependWords (ws : List Word) : Host.Outcome (List Word) Fault Refusal → Host.Outcome (List Word) Fault Refusal
  | .next vs => .next (ws ++ vs)
  | .fault f => .fault f
  | .refused r => .refused r

/-- Each good line of a source is a line of its text. -/
theorem sourceLines_sourceOf (ls : List (Option Word)) (text : List Char) :
    sourceLines (sourceOf ls ++ text) = ls.map lineOf ++ sourceLines text := by
  induction ls with
  | nil => rfl
  | cons l ls ih =>
    cases l with
    | none => exact (sourceLines_append [] _ List.not_mem_nil).trans (congrArg _ ih)
    | some w =>
      rw [sourceOf, List.append_assoc, List.cons_append, sourceLines_append _ _ (newline_notMem_binaryOf w), ih]
      rfl

/-- A blank line puts no word before the rest, the line of a word puts that word. -/
theorem parseLines_lineOf (n : Nat) (l : Option Word) (rest : List (List Char)) :
    parseLines n (lineOf l :: rest) = prependWords l.toList (parseLines (n + 1) rest) := by
  cases l with
  | none =>
    rw [lineOf, parseLines_blank]
    cases parseLines (n + 1) rest <;> rfl
  | some w =>
    cases h : parseLines (n + 1) rest with
    | next ws => exact parseLines_binaryOf n w rest ws h
    | fault f => exact parseLines_binaryOf_fault n w rest f h
    | refused r => exact parseLines_binaryOf_refused n w rest r h

theorem prependWords_append (vs ws : List Word) (o : Host.Outcome (List Word) Fault Refusal) :
    prependWords (vs ++ ws) o = prependWords vs (prependWords ws o) := by
  cases o with
  | next us => exact congrArg _ (List.append_assoc vs ws us)
  | fault f => rfl
  | refused r => rfl

/-- After good lines the loader answers what it makes of the rest, their words put before. -/
theorem parseLines_goodLines (ls : List (Option Word)) (n : Nat) (rest : List (List Char)) :
    parseLines n (ls.map lineOf ++ rest) = prependWords (ls.filterMap id) (parseLines (n + ls.length) rest) := by
  induction ls generalizing n with
  | nil =>
    show parseLines n rest = _
    cases parseLines n rest <;> rfl
  | cons l ls ih =>
    have hwords : (l :: ls).filterMap id = l.toList ++ ls.filterMap id := by cases l <;> rfl
    have hnumber : n + 1 + ls.length = n + (l :: ls).length := by rw [List.length_cons]; omega
    rw [List.map_cons, List.cons_append, parseLines_lineOf, ih, hwords, prependWords_append, hnumber]

/-- What the loader reads from a text of good lines and a rest. -/
theorem parseLines_sourceOf (ls : List (Option Word)) (text : List Char) :
    parseLines 1 (sourceLines (sourceOf ls ++ text)) =
      prependWords (ls.filterMap id) (parseLines (ls.length + 1) (sourceLines text)) := by
  rw [sourceLines_sourceOf, parseLines_goodLines, Nat.add_comm]

section
variable {ls : List (Option Word)} {text : List Char} (s : State)

theorem loadSource_of_next {ws : List Word} (h : parseLines (ls.length + 1) (sourceLines text) = .next ws) :
    loadSource (sourceOf ls ++ text) s = loadImage (ls.filterMap id ++ ws) s := by
  rw [loadSource, parseLines_sourceOf, h]
  rfl

theorem loadSource_of_fault {f : Fault} (h : parseLines (ls.length + 1) (sourceLines text) = .fault f) :
    loadSource (sourceOf ls ++ text) s = .fault f := by
  rw [loadSource, parseLines_sourceOf, h]
  rfl

theorem loadSource_of_refused {r : Refusal} (h : parseLines (ls.length + 1) (sourceLines text) = .refused r) :
    loadSource (sourceOf ls ++ text) s = .refused r := by
  rw [loadSource, parseLines_sourceOf, h]
  rfl

end

theorem Malformed.ne_nil {l : List Char} (h : Malformed l) : l ≠ [] := by
  rintro rfl
  simp [Malformed] at h

theorem TooShort.newline_notMem {l : List Char} (h : TooShort l) : '\n' ∉ l := by
  obtain ⟨_, hdigits, _⟩ := h
  intro hmem
  exact absurd (hdigits _ hmem) (by decide)

end Sys2Proof.Machine
end

section
/-! SUPPORT. What an instruction does does not depend on its destination (`30_encoding.md` R104): with another `rd` it
takes the same action, but for the register that a result is written to. -/

namespace Sys2Proof.Machine

/-- The action with another destination; one that writes no register stays. -/
def Action.withDestination (r : Reg) : Action → Action
  | .result _ v target => .result r v target
  | a => a

theorem withDestination_self {i : Instr} {rd : Reg} (h : i.destination = some rd) : i.withDestination rd = i := by
  cases i with
  | sw | beq | bne | blt | bge | bltu | bgeu => exact nomatch h
  | _ => exact Option.some.inj h ▸ rfl

/-- A division ends alike for every destination. -/
theorem retireDivision_action (res : Except Refusal Word) (s : State) :
    ∃ a : Action, ∀ r : Reg, retireDivision r res s = (a.withDestination r).apply s := by
  cases res with
  | ok v => exact ⟨.result 0 v s.pcPlus4, fun _ => rfl⟩
  | error e => exact ⟨.refuses e, fun _ => rfl⟩

/-- JALR ends alike for every destination. -/
theorem execJalr_action (rs1 : Reg) (imm : BitVec 12) (f3 : BitVec 3) (s : State) :
    ∃ a : Action, ∀ r : Reg, execJalr r rs1 imm f3 s = (a.withDestination r).apply s := by
  by_cases hf : funct3Accepted s.params.strictFunct3 canonicalJalrFunct3 f3 = true
  · exact ⟨.result 0 s.pcPlus4 (s.basePlus rs1 imm), fun _ => if_pos hf⟩
  · exact ⟨.refuses (.nonCanonicalFunct3 f3), fun _ => if_neg hf⟩

/-- LW ends alike for every destination: its checks and its read are the same. -/
theorem execLw_action (rs1 : Reg) (imm : BitVec 12) (f3 : BitVec 3) (s : State) :
    ∃ a : Action, ∀ r : Reg, execLw r rs1 imm f3 s = (a.withDestination r).apply s := by
  by_cases hf : funct3Accepted s.params.strictFunct3 canonicalWordFunct3 f3 = true
  · cases hread : s.memRead (s.basePlus rs1 imm) with
    | error f =>
      refine ⟨.aborts f, fun r => ?_⟩
      rw [execLw, if_pos hf, hread]
      rfl
    | ok v =>
      refine ⟨.result 0 v s.pcPlus4, fun r => ?_⟩
      rw [execLw, if_pos hf, hread]
      rfl
  · exact ⟨.refuses (.nonCanonicalFunct3 f3), fun _ => if_neg hf⟩

/-- An instruction takes one and the same action for every destination. -/
theorem exec_withDestination {i : Instr} {rd : Reg} (h : i.destination = some rd) (s : State) :
    ∃ a : Action, ∀ r : Reg, exec (i.withDestination r) s = (a.withDestination r).apply s := by
  cases i with
  | sw | beq | bne | blt | bge | bltu | bgeu => exact nomatch h
  | div | rem => exact retireDivision_action _ s
  | jalr => exact execJalr_action _ _ _ s
  | lw => exact execLw_action _ _ _ s
  | _ => exact ⟨.result 0 _ _, fun _ => rfl⟩

/-- With destination 0 an action leaves the same state but for the register file, which stays. -/
theorem apply_withDestination_zero {a : Action} {rd : Reg} {s t : State}
    (h : (a.withDestination rd).apply s = .next t) : (a.withDestination 0).apply s = .next { t with x := s.x } := by
  cases a with
  | refuses r => simp [Action.withDestination, Action.apply] at h
  | result _ v target =>
    obtain rfl := Host.Outcome.next.inj h
    simp [Action.withDestination, Action.apply, retire, State.advanceTo]
  | _ =>
    obtain rfl := Host.Outcome.next.inj h
    rfl

/-- A refusal does not depend on the destination. -/
theorem withDestination_refuses {a : Action} {rd : Reg} {r : Refusal} (h : a.withDestination rd = .refuses r) :
    a = .refuses r := by
  cases a with
  | result => exact nomatch h
  | _ => exact h

/-- A result for register 0 goes nowhere. -/
theorem ResultIs.onlyGoesTo {s t : State} {v target : Word} (h : ResultIs s t 0 v target) : OnlyGoesTo s t target where
  retires := h.retires
  registers := fun r => (h.registers r).trans (if_neg fun hr => hr.2 hr.1)
  data := h.data

end Sys2Proof.Machine
end

section
/-! The obligations of `30_encoding.md`. -/

open Sys2Proof Sys2Proof.Machine

/-- Settles O8: the word matches the instruction's row, so it decodes to that row with the word's operands, which are
the instruction's. -/
theorem decodeOfEncode : Obligations.DecodeOfEncode := by
  intro i hi
  rw [decode_of_row (row_encode i), withFieldsOf_encode hi]

/-- Settles O9: a word that decodes matches the row of its instruction, whose operands are the word's. -/
theorem encodeOfDecode : Obligations.EncodeOfDecode := by
  intro w i h
  obtain ⟨hrow, hi⟩ := rowOf_of_decode h
  rw [← hi]
  exact ⟨wellFormed_withFieldsOf i w, encode_withFieldsOf hrow⟩

/-- Settles O10: a word that matches a row decodes to the row's instruction with its own operands. -/
theorem tableRowsDecideTheInstruction : Obligations.TableRowsDecideTheInstruction :=
  ⟨fun _ _ h => (rowOf_of_decode h).row, fun w i h => ⟨_, decode_of_row h, row_withFieldsOf i w⟩⟩

/-- Settles O4: the loader reads the good lines first, and then what its one line or its bad line gives. -/
theorem programSourceLoads : Obligations.ProgramSourceLoads := by
  refine ⟨fun ls s => ?_, fun ls w s => ?_, fun ls l rest s hnl hl => ?_, fun ls l rest s hl => ?_⟩
  · simpa using loadSource_of_next (ls := ls) (text := []) s rfl
  · have hne : binaryOf w ≠ [] := List.ne_nil_of_length_pos (by rw [length_binaryOf]; decide)
    refine loadSource_of_next s ?_
    rw [sourceLines_last _ (newline_notMem_binaryOf w) hne]
    exact parseLines_binaryOf _ w [] [] rfl
  · rw [List.append_assoc]
    refine ⟨loadSource_of_fault s ?_, loadSource_of_fault s ?_⟩
    · rw [sourceLines_append _ _ hnl, parseLines_malformed _ _ _ hl]
    · rw [sourceLines_last _ hnl hl.ne_nil, parseLines_malformed _ _ _ hl]
  · rw [List.append_assoc]
    refine ⟨loadSource_of_refused s ?_, loadSource_of_refused s ?_⟩
    · rw [sourceLines_append _ _ hl.newline_notMem, parseLines_tooShort _ _ _ hl]
    · rw [sourceLines_last _ hl.newline_notMem hl.1, parseLines_tooShort _ _ _ hl]

/-- Settles O11: each kind of illegal word decodes to its error, and the step aborts with its fault. -/
theorem illegalWordsAbort : Obligations.IllegalWordsAbort := by
  intro s w hw
  refine ⟨fun hop => ?_, fun hop hf => ?_, fun hop hf => ?_, fun hop hf => ?_, fun hop hf => ?_⟩
  · exact step_of_decodeError hw (decode_illegalOpcode hop)
  · exact step_of_decodeError hw ((decode_op hop).trans (decodeOp_illegal hf))
  · refine step_of_decodeError (e := .illegalAluOp 0x002#10) hw ?_
    rw [decode_opImm hop, decodeOpImm, hf]
    rfl
  · refine step_of_decodeError (e := .illegalAluOp 0x003#10) hw ?_
    rw [decode_opImm hop, decodeOpImm, hf]
    rfl
  · exact step_of_decodeError hw ((decode_branch hop).trans (decodeBranch_illegal hf))

/-- Settles O20: both designs treat an ended run, the sentinel and a faulting fetch alike, and a fetched word ends both
in the same operation. -/
theorem stepIsTheDatapath : Obligations.StepIsTheDatapath := by
  intro s
  unfold datapathStep
  split
  case isFalse hr => exact step_ended s hr
  case isTrue hr =>
    split
    case isTrue hx => exact step_of_sentinel hr hx
    case isFalse hx =>
      cases hf : s.ifetch with
      | error f => exact step_of_ifetch_error ⟨hr, hx⟩ hf
      | ok w =>
        rw [step_of_ifetch_ok ⟨hr, hx⟩ hf]
        dsimp only
        rcases datapath w s with (f | r) | t <;> rfl

/-- Settles O31: a word decodes or is fatal; an instruction takes the same action for every destination, and one whose
destination is 0 writes no register. -/
theorem rdZeroSuppressesOnlyTheWrite : Obligations.RdZeroSuppressesOnlyTheWrite := by
  refine ⟨fun s w hw => ?_, fun i rd s t hd he => ?_, fun i rd s r hd he => ?_, ⟨rfl, fun s => ?_⟩, fun s hx => ?_⟩
  · cases hd : decode w with
    | error e => exact .inr ⟨_, step_of_decodeError hw hd⟩
    | ok i => exact .inl ⟨i, rfl, step_of_fetchesWord hw hd⟩
  · obtain ⟨a, ha⟩ := exec_withDestination hd s
    rw [← withDestination_self hd, ha] at he
    rw [ha, apply_withDestination_zero he]
  · obtain ⟨a, ha⟩ := exec_withDestination hd s
    rw [← withDestination_self hd, ha] at he
    rw [ha, withDestination_refuses (apply_refused he)]
    rfl
  · obtain ⟨t, he, ht⟩ := retire_resultIs 0 (aluAdd (s.readReg 0) (sext12 0)) s.pcPlus4 s
    exact ⟨t, he, ht.onlyGoesTo⟩
  · have haddr : s.basePlus 0 2#12 = 2#32 := by
      rw [State.basePlus, hx]
      rfl
    refine exec_lw_of_fault (.inr rfl) ?_
    rw [haddr]
    rfl

/-- Settles O6, word by word. -/
theorem sampleWordsDecode : Obligations.SampleWordsDecode := by
  unfold Obligations.SampleWordsDecode
  decide

/-- Settles O7, format by format; of a branch or JAL offset all bits but bit 0 are in the word. -/
theorem fieldsRoundTrip : Obligations.FieldsRoundTrip := by
  refine ⟨?r, ?i, ?s, ?b, ?u, ?j⟩
  case r => simp
  case i => simp [immI, sext12]
  case s => simp [immS, sext12]
  case b => simp [immB, sext13, bField_encB_implied_bit]
  case u => simp [immU_eq_upperImm, upperImm]
  case j => simp [immJ, sext21, jField_encJ_implied_bit]

/-- Settles O48: with `STRICT_FUNCT3 = false` every funct3 is accepted, with `true` only the canonical one. -/
theorem unexaminedFunct3 : Obligations.UnexaminedFunct3 := by
  intro s rd rs1 rs2 imm f3
  refine ⟨fun hs => ⟨?_, ?_, ?_⟩, fun hs => ⟨fun hf => ⟨?_, ?_⟩, fun hf => ?_⟩⟩
  · exact (execLw_accepted _ _ _ _ _ (.inl hs)).trans (execLw_accepted _ _ _ _ _ (.inl hs)).symm
  · exact (execSw_accepted _ _ _ _ _ (.inl hs)).trans (execSw_accepted _ _ _ _ _ (.inl hs)).symm
  · exact (execJalr_accepted _ _ _ _ _ (.inl hs)).trans (execJalr_accepted _ _ _ _ _ (.inl hs)).symm
  · exact exec_lw_refused hs rd rs1 imm hf
  · exact exec_sw_refused hs rs1 rs2 imm hf
  · exact exec_jalr_refused hs rd rs1 imm hf
end

section
/-! SUPPORT. What a cycle that ends the run leaves (`40_execute_cycle.md` R136, R138), the write-back stage (R132), and
the values of the shifts, the product and the division as numbers (R126, R127). -/

namespace Sys2Proof.Machine

/-! ## A cycle that does not go on (`40_execute_cycle.md` R136, R138) -/

/-- An instruction that ends the run aborted it and changed nothing else. -/
theorem exec_not_running {i : Instr} {s t : State} (hs : s.run = .running) (he : exec i s = .next t)
    (ht : t.run ≠ .running) : ∃ f : Fault, t = { s with run := .aborted f } := by
  cases exec_effect i s t he with
  | result rd v target => exact absurd (by simpa using hs) ht
  | goes target => exact absurd hs ht
  | stores a v => exact absurd hs ht
  | aborts f => exact ⟨f, rfl⟩

/-- A step of a running core that ends the run changes `run` alone. -/
theorem step_not_running {s t : State} (hs : s.run = .running) (h : step s = .next t) (ht : t.run ≠ .running) :
    ∃ m : RunState, t = { s with run := m } := by
  cases step_effect s t h with
  | ended hne => exact absurd hs hne
  | halts => exact ⟨_, rfl⟩
  | fetchFault f => exact ⟨_, rfl⟩
  | executes i t _ _ _ he =>
    obtain ⟨f, hf⟩ := exec_not_running hs he ht
    exact ⟨_, hf⟩

/-- A step after which the core still runs counts one on the clock. -/
theorem clock_step_of_running {s t : State} (hs : s.run = .running) (h : step s = .next t) (ht : t.run = .running) :
    t.clock = s.clock + 1 := by
  cases step_effect s t h with
  | ended hne => exact absurd hs hne
  | halts => exact nomatch ht
  | fetchFault f => exact nomatch ht
  | executes i t _ _ _ he => exact clock_exec_of_running he ht

/-! ## Write-back (`40_execute_cycle.md` R132) -/

/-- A register write changes nothing but the register file. -/
theorem writeReg_withX (s : State) (i : Reg) (v : Word) : { s.writeReg i v with x := s.x } = s := by
  unfold State.writeReg
  split <;> rfl

/-- `readReg_writeReg` with the guard on the register read. -/
theorem readReg_writeReg_guard (s : State) (i j : Reg) (v : Word) :
    (s.writeReg i v).readReg j = if j = i ∧ j ≠ 0 then v else s.readReg j := by
  rw [readReg_writeReg]
  exact if_congr (and_congr_right fun h => by rw [h]) rfl rfl

/-- A decode stage that gives bundles gives those of the word's class (`30_encoding.md` R97, R98). -/
theorem decodeStage_ok {w : Word} {s : State} {d : Decoded} {c : Control} (h : decodeStage w s = .ok (d, c)) :
    ∃ k : OpClass, opClass (opcodeOf w) = some k ∧ d = decodedBundle k w s ∧ c = controlBundle k w := by
  unfold decodeStage at h
  split at h
  · exact nomatch h
  next k hk =>
    split at h
    · obtain ⟨rfl, rfl⟩ := Prod.mk.inj (Except.ok.inj h)
      exact ⟨k, hk, rfl, rfl⟩
    · exact nomatch h

/-- The control-signal table selects nothing for STORE and BRANCH alone (`30_encoding.md` R98). -/
theorem wbSel_eq_none_iff (k : OpClass) (w : Word) :
    (controlBundle k w).wbSel = .none ↔ k = .store ∨ k = .branch := by
  cases k <;> simp [controlBundle, clearedControl]

/-- The decoded bundles of STORE and BRANCH have destination 0 (decision D9). -/
theorem decodedBundle_rd_eq_zero {k : OpClass} (h : k = .store ∨ k = .branch) (w : Word) (s : State) :
    (decodedBundle k w s).rd = 0 := by
  rcases h with rfl | rfl <;> rfl

/-! ## An instruction whose one result has a property -/

/-- A cycle that writes `v` and goes on at `pc + 4` has its whole effect, for whatever is known of `v`. -/
theorem exists_resultIs {P : Word → Prop} {i : Instr} {s : State} {rd : Reg} {v : Word}
    (he : exec i s = retire rd v s.pcPlus4 s) (hv : P v) :
    ∃ (t : State) (u : Word), exec i s = .next t ∧ ResultIs s t rd u (s.pc + 4) ∧ P u := by
  obtain ⟨t, ht, hres⟩ := retire_resultIs rd v s.pcPlus4 s
  exact ⟨t, v, he.trans ht, hres, hv⟩

/-! ## Shifts by the whole operand (`40_execute_cycle.md` R126, `SHAMT_RULE = full`) -/

theorem toNat_aluSll_full (a b : Word) :
    (aluSll .full a b).toNat = if 32 ≤ b.toNat then 0 else a.toNat * 2 ^ b.toNat % 2 ^ 32 := by
  rw [aluSll]
  split
  · rfl
  · rw [BitVec.toNat_shiftLeft, Nat.shiftLeft_eq]

theorem toNat_aluSrl_full (a b : Word) :
    (aluSrl .full a b).toNat = if 32 ≤ b.toNat then 0 else a.toNat / 2 ^ b.toNat := by
  rw [aluSrl]
  split
  · rfl
  · rw [BitVec.toNat_ushiftRight, Nat.shiftRight_eq_div_pow]

/-- Sign extension leaves an immediate below 32 as it is, and the others at 32 or more. -/
theorem toNat_sext12 (imm : BitVec 12) :
    (sext12 imm).toNat = imm.toNat ∨ 32 ≤ (sext12 imm).toNat ∧ 32 ≤ imm.toNat := by
  rw [sext12, BitVec.toNat_signExtend, BitVec.toNat_setWidth_of_le (by decide)]
  cases hmsb : imm.msb with
  | false => exact .inl (by simp)
  | true =>
    have hhigh : 2 ^ 11 ≤ imm.toNat := BitVec.le_toNat_of_msb_true hmsb
    exact .inr ⟨by simp, by omega⟩

theorem toNat_aluSll_full_sext12 (a : Word) (imm : BitVec 12) :
    (aluSll .full a (sext12 imm)).toNat = if 32 ≤ imm.toNat then 0 else a.toNat * 2 ^ imm.toNat % 2 ^ 32 := by
  rw [toNat_aluSll_full]
  rcases toNat_sext12 imm with h | ⟨hext, himm⟩
  · rw [h]
  · rw [if_pos hext, if_pos himm]

theorem toNat_aluSrl_full_sext12 (a : Word) (imm : BitVec 12) :
    (aluSrl .full a (sext12 imm)).toNat = if 32 ≤ imm.toNat then 0 else a.toNat / 2 ^ imm.toNat := by
  rw [toNat_aluSrl_full]
  rcases toNat_sext12 imm with h | ⟨hext, himm⟩
  · rw [h]
  · rw [if_pos hext, if_pos himm]

/-! ## The product and the division (`40_execute_cycle.md` R127) -/

/-- The low half of the signed product is that of the unsigned one. -/
theorem aluMul_eq_mul (a b : Word) : aluMul a b = a * b := by
  rw [aluMul, BitVec.ofInt_mul, BitVec.ofInt_toInt, BitVec.ofInt_toInt]

theorem natCast_toNat_aluMul (a b : Word) : ((aluMul a b).toNat : Int) = a.toInt * b.toInt % 2 ^ 32 := by
  rw [aluMul, BitVec.toNat_ofInt]
  exact Int.toNat_of_nonneg (Int.emod_nonneg _ (by decide))

/-- Away from a corner both rules give the result (decision D6). -/
theorem underCornerRule_ok {a b : Word} (h : divisionCorner a b = false) (rule : DivCornerRule) (v : Word) :
    underCornerRule rule a b v = .ok v := by
  cases rule with
  | riscv => rfl
  | refuse => rw [underCornerRule, h]; rfl

section
variable {a b : Word} (hb : b ≠ 0) (hab : ¬ (a = 0x80000000#32 ∧ b = 0xFFFFFFFF#32))
include hb hab

theorem divisionCorner_eq_false : divisionCorner a b = false := by
  rw [divisionCorner, decide_eq_false hb]
  simpa using hab

/-- The quotient fits in 32 bits: it is the integer quotient rounded toward zero. -/
theorem toInt_divValue : (divValue a b).toInt = a.toInt.tdiv b.toInt := by
  rw [divValue, if_neg hb, if_neg hab, BitVec.toInt_ofInt, ← BitVec.toInt_sdiv]
  exact BitVec.toInt_sdiv_of_ne_or_ne a b (not_and_or.mp hab)

/-- The remainder that goes with the quotient rounded toward zero. -/
theorem toInt_remValue : (remValue a b).toInt = a.toInt.tmod b.toInt := by
  rw [remValue, if_neg hb, if_neg hab, ← Int.tmod_def, ← BitVec.toInt_srem, BitVec.ofInt_toInt]

end

/-- A divisor that is not 0 bounds the remainder. -/
theorem natAbs_tmod_toInt_lt {b : Word} (hb : b ≠ 0) (n : Int) : (n.tmod b.toInt).natAbs < b.toInt.natAbs := by
  have hne : b.toInt ≠ 0 := BitVec.toInt_ne.mpr hb
  rw [Int.natAbs_tmod]
  exact Nat.mod_lt _ (Int.natAbs_pos.mpr hne)

/-- The remainder of a dividend that is not positive is not positive. -/
theorem tmod_nonpos {n : Int} (m : Int) (hn : n ≤ 0) : n.tmod m ≤ 0 := by
  have hneg := Int.tmod_nonneg m (Int.neg_nonneg_of_nonpos hn)
  rw [Int.neg_tmod] at hneg
  omega

end Sys2Proof.Machine
end

section
/-! The obligations of `40_execute_cycle.md`. -/

open Sys2Proof Sys2Proof.Machine

/-- Settles O17: a step that ends the run changes `run` alone. -/
theorem faultingCycleChangesOnlyTheRun : Obligations.FaultingCycleChangesOnlyTheRun := by
  intro s t f hs h ht
  have hended : t.run ≠ .running := by rw [ht]; nofun
  obtain ⟨m, rfl⟩ := step_not_running hs h hended
  obtain rfl : m = .aborted f := ht
  rfl

/-- Settles O18: a step that goes on executed an instruction that retired, any other changes `run` alone. -/
theorem clockCountsRetiredCycles : Obligations.ClockCountsRetiredCycles := by
  refine fun s t hs h => ⟨clock_step_of_running hs h, fun ht => ?_⟩
  obtain ⟨m, rfl⟩ := step_not_running hs h ht
  rfl

/-- Settles O32: the stage writes by the rule of one register, and a class without a selector has destination 0. -/
theorem writeBackWritesTheSelectedValue : Obligations.WriteBackWritesTheSelectedValue := by
  refine ⟨fun d c r m l s => ?_, fun w s d c h => ?_, fun d r s => rfl⟩
  · rw [writeBack_eq]
    cases c.wbSel with
    | none => exact ⟨fun i => (ite_self _).symm, rfl⟩
    | alu | mem | pcPlus4 => exact ⟨fun i => readReg_writeReg_guard s d.rd i _, writeReg_withX s d.rd _⟩
  · obtain ⟨k, hk, rfl, rfl⟩ := decodeStage_ok h
    rw [wbSel_eq_none_iff, hk, Option.some_inj, Option.some_inj]
    exact ⟨.rfl, fun hnone => decodedBundle_rd_eq_zero hnone w s⟩

/-- Settles O37: the amount is all of operand B, which for an immediate is the sign-extended field. -/
theorem shiftsByTheFullOperand : Obligations.ShiftsByTheFullOperand := by
  intro s rd rs1 rs2 imm hfull
  refine ⟨exists_resultIs rfl ?_, exists_resultIs rfl ?_, exists_resultIs rfl ?_, exists_resultIs rfl ?_⟩
  all_goals rw [hfull]
  · exact toNat_aluSll_full _ _
  · exact toNat_aluSrl_full _ _
  · exact toNat_aluSll_full_sext12 _ _
  · exact toNat_aluSrl_full_sext12 _ _

/-- Settles O38: the low half is the product of words. -/
theorem multiplyReturnsTheLowHalf : Obligations.MultiplyReturnsTheLowHalf := by
  intro s rd rs1 rs2
  refine exists_resultIs rfl ⟨natCast_toNat_aluMul _ _, ?_⟩
  rw [aluMul_eq_mul, BitVec.toNat_mul]

/-- Settles O39: away from the corners the results are the integer quotient and remainder of truncated division. -/
theorem divideAndRemainder : Obligations.DivideAndRemainder := by
  intro s rd rs1 rs2 hb hab
  have hok := underCornerRule_ok (divisionCorner_eq_false hb hab) s.params.divCorner
  obtain ⟨t, ht, htres⟩ := retire_resultIs rd (divValue (s.readReg rs1) (s.readReg rs2)) s.pcPlus4 s
  obtain ⟨u, hu, hures⟩ := retire_resultIs rd (remValue (s.readReg rs1) (s.readReg rs2)) s.pcPlus4 s
  refine ⟨t, u, _, _, ?_, htres, ?_, hures, ?_⟩
  · exact (congrArg (retireDivision rd · s) (hok _)).trans ht
  · exact (congrArg (retireDivision rd · s) (hok _)).trans hu
  · rw [toInt_divValue hb hab, toInt_remValue hb hab]
    exact ⟨Int.tdiv_mul_add_tmod _ _, natAbs_tmod_toInt_lt hb _, Int.tmod_nonneg _, tmod_nonpos _⟩

/-- Settles O12: the fetch reads the word, and nothing stands between the decoder and `exec`. -/
theorem stepRunsTheDecodedInstruction : Obligations.StepRunsTheDecodedInstruction :=
  fun _ _ _ => step_of_fetchesWord

/-- Settles O13: the check at the top of the cycle decides. -/
theorem sentinelHaltsBeforeTheFetch : Obligations.SentinelHaltsBeforeTheFetch :=
  fun _ => step_of_sentinel

/-- Settles O50: two codes have no condition, the gates compute the other six. -/
theorem branchGatesAgree : Obligations.BranchGatesAgree := by
  refine fun f3 a b => ⟨?_, branchTaken_eq_gates f3 a b⟩
  rintro (rfl | rfl) <;> rfl
end

section
/-! SUPPORT. The values of the sum, the difference and the shifts by five bits as numbers (`40_execute_cycle.md` R125,
R126), and of the division at its corners (R127, decision D6). -/

namespace Sys2Proof.Machine

/-! ## Sum and difference (`00_scope.md` R7, decision D15) -/

theorem natCast_toNat_aluAdd (a b : Word) : ((aluAdd a b).toNat : Int) = (a.toNat + b.toNat : Int) % 2 ^ 32 := by
  rw [aluAdd, BitVec.toNat_add]
  exact Int.natCast_emod _ _

theorem natCast_toNat_aluSub (a b : Word) : ((aluSub a b).toNat : Int) = (a.toNat - b.toNat : Int) % 2 ^ 32 := by
  have hb := b.isLt
  rw [aluSub, BitVec.toNat_sub]
  omega

/-! ## Shifts by bits 4:0 of operand B (`40_execute_cycle.md` R126, `SHAMT_RULE = low5`) -/

theorem toNat_aluSll_low5 (a b : Word) :
    (aluSll .low5 a b).toNat = a.toNat * 2 ^ (b.toNat % 32) % 2 ^ 32 := by
  rw [aluSll, BitVec.toNat_shiftLeft, Nat.shiftLeft_eq, BitVec.extractLsb'_toNat, Nat.shiftRight_zero]

theorem toNat_aluSrl_low5 (a b : Word) : (aluSrl .low5 a b).toNat = a.toNat / 2 ^ (b.toNat % 32) := by
  rw [aluSrl, BitVec.toNat_ushiftRight, Nat.shiftRight_eq_div_pow, BitVec.extractLsb'_toNat, Nat.shiftRight_zero]

/-- Sign extension keeps the low five bits. -/
theorem toNat_sext12_mod (imm : BitVec 12) : (sext12 imm).toNat % 32 = imm.toNat % 32 := by
  rw [sext12, BitVec.toNat_signExtend, BitVec.toNat_setWidth_of_le (by decide)]
  split <;> omega

/-! ## Division under `DIV_CORNER_RULE = riscv` (decision D6) -/

/-- Under the default rule DIV and REM complete with the two values of the ALU, whatever these are. -/
theorem exists_divisionResults {s : State} {rs1 rs2 : Reg} {q r : Word} (hrule : s.params.divCorner = .riscv)
    (hq : divValue (s.readReg rs1) (s.readReg rs2) = q) (hr : remValue (s.readReg rs1) (s.readReg rs2) = r)
    (rd : Reg) :
    ∃ t u : State, exec (.div rd rs1 rs2) s = .next t ∧ ResultIs s t rd q (s.pc + 4) ∧
      exec (.rem rd rs1 rs2) s = .next u ∧ ResultIs s u rd r (s.pc + 4) := by
  have hok (v : Word) : underCornerRule s.params.divCorner (s.readReg rs1) (s.readReg rs2) v = .ok v := by
    rw [hrule]; rfl
  obtain ⟨t, ht, htres⟩ := retire_resultIs rd q s.pcPlus4 s
  obtain ⟨u, hu, hures⟩ := retire_resultIs rd r s.pcPlus4 s
  subst hq hr
  exact ⟨t, u, (congrArg (retireDivision rd · s) (hok _)).trans ht, htres,
    (congrArg (retireDivision rd · s) (hok _)).trans hu, hures⟩

theorem divValue_zero (a : Word) : divValue a 0 = 0xFFFFFFFF#32 := if_pos rfl

theorem remValue_zero (a : Word) : remValue a 0 = a := if_pos rfl

theorem divValue_overflow : divValue 0x80000000#32 0xFFFFFFFF#32 = 0x80000000#32 := by decide

theorem remValue_overflow : remValue 0x80000000#32 0xFFFFFFFF#32 = 0 := by decide

end Sys2Proof.Machine
end

section
/-! The obligations of `41_alu_register.md`. -/

open Sys2Proof Sys2Proof.Machine

/-- Settles O33: the words' sum and difference are those of the integers modulo 2^32, the immediate's sign included. -/
theorem addAndSubtract : Obligations.AddAndSubtract := by
  intro s rd rs1 rs2 imm
  refine ⟨exists_resultIs rfl ?_, exists_resultIs rfl ?_, exists_resultIs rfl ?_⟩
  · exact natCast_toNat_aluAdd _ _
  · exact natCast_toNat_aluSub _ _
  · exact toNat_add_signExtend (by decide) _ _

/-- Settles O34: the three operations act on each bit by itself. -/
theorem logicRegister : Obligations.LogicRegister := by
  intro s rd rs1 rs2
  refine ⟨exists_resultIs rfl ?_, exists_resultIs rfl ?_, exists_resultIs rfl ?_⟩
  · exact fun _ => BitVec.getLsbD_xor
  · exact fun _ => BitVec.getLsbD_or
  · exact fun _ => BitVec.getLsbD_and

/-- Settles O36: the amount is operand B modulo 32, which sign extension does not change. -/
theorem shiftsByLowFiveBits : Obligations.ShiftsByLowFiveBits := by
  intro s rd rs1 rs2 imm hlow
  refine ⟨exists_resultIs rfl ?_, exists_resultIs rfl ?_, exists_resultIs rfl ?_, exists_resultIs rfl ?_⟩
  all_goals rw [hlow]
  · exact toNat_aluSll_low5 _ _
  · exact toNat_aluSrl_low5 _ _
  · rw [toNat_aluSll_low5, toNat_sext12_mod]
  · rw [toNat_aluSrl_low5, toNat_sext12_mod]

/-- Settles O40: the default rule passes on the ALU's values, which the corners fix. -/
theorem divisionCorners : Obligations.DivisionCorners := by
  refine fun s rd rs1 rs2 hrule => ⟨fun hb => ?_, fun ha hb => ?_⟩
  · refine exists_divisionResults hrule ?_ ?_ rd <;> rw [hb]
    · exact divValue_zero _
    · exact remValue_zero _
  · refine exists_divisionResults hrule ?_ ?_ rd <;> rw [ha, hb]
    · exact divValue_overflow
    · exact remValue_overflow
end

section
/-! SUPPORT. The bits of a sign-extended 12-bit immediate (`42_alu_immediate.md` R170). -/

namespace Sys2Proof.Machine

/-- From bit 11 up, every bit of the extended immediate is its sign bit. -/
theorem getLsbD_sext12 (imm : BitVec 12) {k : Nat} (hk : k < 32) :
    (sext12 imm).getLsbD k = imm.getLsbD (min k 11) := by
  rw [sext12, BitVec.getLsbD_signExtend, decide_eq_true hk, Bool.true_and]
  split
  case isTrue hlow => rw [Nat.min_eq_left (Nat.le_of_lt_succ hlow)]
  case isFalse hhigh => rw [Nat.min_eq_right (by omega), BitVec.msb_eq_getLsbD_last]

end Sys2Proof.Machine
end

section
/-! The obligations of `42_alu_immediate.md`. -/

open Sys2Proof Sys2Proof.Machine

/-- Settles O35: the operations act on each bit by itself, and operand B is the sign-extended immediate. -/
theorem logicImmediate : Obligations.LogicImmediate := by
  intro s rd rs1 imm
  refine ⟨exists_resultIs rfl ?_, exists_resultIs rfl ?_, exists_resultIs rfl ?_⟩
  all_goals
    intro k hk
    rw [← getLsbD_sext12 imm hk]
  · exact BitVec.getLsbD_xor
  · exact BitVec.getLsbD_or
  · exact BitVec.getLsbD_and
end

section
/-! SUPPORT. How a data access ends, by its address (`20_memory.md` R57 to R59), the bytes of a word in memory (R51),
and what a store that retires leaves (R58). -/

namespace Sys2Proof.Machine

/-! ## A data access by its address -/

section
variable {s : State} {a : Word}

theorem memRead_misaligned (ha : a.toNat % 4 ≠ 0) : s.memRead a = .error (.dataMisaligned a) := by
  rcases memRead_cases s a with ⟨_, hr⟩ | ⟨ha', _, _⟩ | ⟨ha', _, _⟩
  · exact hr
  · exact absurd ha' ha
  · exact absurd ha' ha

theorem memRead_outOfRange (ha : a.toNat % 4 = 0) (hi : s.params.dmemSize ≤ a.toNat + 3) :
    s.memRead a = .error (.dataOutOfRange a) := by
  rcases memRead_cases s a with ⟨hn, _⟩ | ⟨_, _, hr⟩ | ⟨_, hlt, _⟩
  · exact absurd ha hn
  · exact hr
  · exact absurd hlt hi.not_gt

theorem memRead_inside (ha : a.toNat % 4 = 0) (hi : a.toNat + 3 < s.params.dmemSize) :
    s.memRead a = .ok (s.dmem.readWord a.toNat) := by
  rcases memRead_cases s a with ⟨hn, _⟩ | ⟨_, hge, _⟩ | ⟨_, _, hr⟩
  · exact absurd ha hn
  · exact absurd hi hge.not_gt
  · exact hr

/-- A store faults where a load does, and with the same fault. -/
theorem memWrite_of_memRead_error {f : Fault} (h : s.memRead a = .error f) (v : Word) :
    s.memWrite a v = .error f := by
  unfold State.memRead at h
  unfold State.memWrite
  split_ifs at h ⊢
  · exact congrArg Except.error (Except.error.inj h)
  · exact congrArg Except.error (Except.error.inj h)

theorem memWrite_inside (ha : a.toNat % 4 = 0) (hi : a.toNat + 3 < s.params.dmemSize) (v : Word) :
    s.memWrite a v = .ok (s.storeWord a.toNat v) := by
  rcases memWrite_cases s a v with ⟨hn, _⟩ | ⟨_, hge, _⟩ | ⟨_, _, hw⟩
  · exact absurd ha hn
  · exact absurd hi hge.not_gt
  · exact hw

end

/-- LW and SW abort alike where the read of their address faults. -/
theorem exec_lw_sw_of_fault {s : State} {rs1 : Reg} {imm : BitVec 12} {f3 : BitVec 3} {f : Fault}
    (hf3 : s.params.strictFunct3 = false ∨ f3 = 2#3) (h : s.memRead (s.basePlus rs1 imm) = .error f) (rd rs2 : Reg) :
    exec (.lw rd rs1 imm f3) s = abortOf f s ∧ exec (.sw rs2 rs1 imm f3) s = abortOf f s :=
  ⟨exec_lw_of_fault hf3 h, exec_sw_of_fault hf3 (memWrite_of_memRead_error h _)⟩

/-! ## The bytes of a word in memory (`20_memory.md` R51) -/

/-- Byte `k` of the word read at `a` is the byte at `a + k`. -/
theorem byteOf_readWord (m : Memory) (a : Nat) {k : Nat} (hk : k < 4) : byteOf (m.readWord a) k = m.read (a + k) := by
  obtain ⟨h0, h1, h2, h3⟩ := byteOf_wordOfBytes (m.read a) (m.read (a + 1)) (m.read (a + 2)) (m.read (a + 3))
  obtain rfl | rfl | rfl | rfl : k = 0 ∨ k = 1 ∨ k = 2 ∨ k = 3 := by omega
  · exact h0
  · exact h1
  · exact h2
  · exact h3

/-- The byte at `a + k` of a word stored at `a` is byte `k` of the word. -/
theorem read_writeWord_inside (m : Memory) (a : Nat) (v : Word) {k : Nat} (hk : k < 4) :
    (m.writeWord a v).read (a + k) = byteOf v k := by
  rw [read_writeWord, if_pos ⟨a.le_add_right k, Nat.add_lt_add_left hk a⟩, Nat.add_sub_cancel_left]

/-- A byte that a store does not cover is as before. -/
theorem read_writeWord_outside (m : Memory) {a c : Nat} (v : Word) (h : c < a ∨ a + 4 ≤ c) :
    (m.writeWord a v).read c = m.read c := by
  rw [read_writeWord, if_neg (by omega)]

/-! ## A store that retires -/

theorem retires_storeWord (s : State) (a : Nat) (v target : Word) :
    Retires s ((s.storeWord a v).advanceTo target) target :=
  ⟨rfl, rfl, rfl, rfl, fun _ => rfl⟩

end Sys2Proof.Machine
end

section
/-! The obligations of `43_load_store.md`. -/

open Sys2Proof Sys2Proof.Machine

/-- Settles O43: the read passes its checks, and the word it gives is that of the four bytes. -/
theorem loadWord : Obligations.LoadWord := by
  intro s rd rs1 imm f3 hf3 ha hi
  exact exists_resultIs (exec_lw_of_read hf3 (memRead_inside ha hi)) fun k hk => byteOf_readWord _ _ hk

/-- Settles O44: the store passes its checks, and it writes and marks the four bytes of its word alone. -/
theorem storeWord : Obligations.StoreWord := by
  intro s rs2 rs1 imm f3 hf3 ha hi
  refine ⟨_, exec_sw_of_write hf3 (memWrite_inside ha hi _), retires_storeWord s _ _ _, fun _ => rfl, ?_, ?_, ?_⟩
  · exact fun k hk => read_writeWord_inside _ _ _ hk
  · exact fun a hout => read_writeWord_outside _ _ hout
  · exact fun a => mem_touchWord s.touched _ a

/-- Settles O46: the access faults, by alignment before range, before it reads, writes or marks anything. -/
theorem badDataAddressAborts : Obligations.BadDataAddressAborts := by
  intro s rd rs1 rs2 imm f3 hf3
  exact ⟨fun ha => exec_lw_sw_of_fault hf3 (memRead_misaligned ha) rd rs2,
    fun ha hi => exec_lw_sw_of_fault hf3 (memRead_outOfRange ha hi) rd rs2⟩
end

section
/-! SUPPORT. A branch's target as a number (`44_branch.md` R190), and the whole effect of a branch on its condition. -/

namespace Sys2Proof.Machine

theorem natCast_toNat_branchTarget (s : State) (off : BitVec 13) :
    ((s.branchTarget off).toNat : Int) = (s.pc.toNat + off.toInt : Int) % 2 ^ 32 :=
  toNat_add_signExtend (by decide) s.pc off

theorem onlyGoesTo_advanceTo (s : State) (target : Word) : OnlyGoesTo s (s.advanceTo target) target where
  retires := ⟨advanceTo_pc s target, advanceTo_clock s target, advanceTo_run s target, advanceTo_params s target,
    fun _ => by rw [advanceTo_imem]⟩
  registers := readReg_advanceTo s target
  data := ⟨fun _ => by rw [advanceTo_dmem], fun _ => by rw [advanceTo_touched]⟩

/-- An instruction that ends as a branch on the condition `c` only goes on: at its target if `c` holds, at `pc + 4`
if not. -/
theorem exists_onlyGoesTo_of_branch {i : Instr} {s : State} {off : BitVec 13} {c : Prop} [Decidable c]
    (he : exec i s = retireBranch (decide c) off s) :
    ∃ t : State, exec i s = .next t ∧ OnlyGoesTo s t (if c then s.branchTarget off else s.pc + 4) := by
  refine ⟨s.advanceTo (if c then s.branchTarget off else s.pc + 4), he.trans ?_, onlyGoesTo_advanceTo s _⟩
  by_cases hc : c
  · rw [decide_eq_true hc, if_pos hc]
    rfl
  · rw [decide_eq_false hc, if_neg hc]
    rfl

end Sys2Proof.Machine
end

section
/-! The obligations of `44_branch.md`. -/

open Sys2Proof Sys2Proof.Machine

/-- Settles O49: the six branches share one target and differ in their condition alone. -/
theorem branchesGoToTheirTarget : Obligations.BranchesGoToTheirTarget := by
  intro s rs1 rs2 off
  refine ⟨s.branchTarget off, natCast_toNat_branchTarget s off, ?beq, ?bne, ?blt, ?bge, ?bltu, ?bgeu⟩
  all_goals exact exists_onlyGoesTo_of_branch rfl
end

section
/-! SUPPORT. A jump's target as a number (`45_jump.md` R200 to R202), and the whole effect of a jump. -/

namespace Sys2Proof.Machine

theorem natCast_toNat_jumpTarget (s : State) (off : BitVec 21) :
    ((s.jumpTarget off).toNat : Int) = (s.pc.toNat + off.toInt : Int) % 2 ^ 32 :=
  toNat_add_signExtend (by decide) s.pc off

/-- An instruction that ends as a jump links `pc + 4` and goes on at its target, for whatever is known of the target. -/
theorem exists_resultIs_of_jump {P : Word → Prop} {i : Instr} {s : State} {rd : Reg} {target : Word}
    (he : exec i s = retire rd s.pcPlus4 target s) (htarget : P target) :
    ∃ (t : State) (u : Word), exec i s = .next t ∧ ResultIs s t rd (s.pc + 4) u ∧ P u := by
  obtain ⟨t, ht, hres⟩ := retire_resultIs rd s.pcPlus4 target s
  exact ⟨t, target, he.trans ht, hres, htarget⟩

end Sys2Proof.Machine
end

section
/-! The obligations of `45_jump.md`. -/

open Sys2Proof Sys2Proof.Machine

/-- Settles O51: both jumps link alike; JAL's target is relative to the pc, JALR's to the old base register. -/
theorem jumpsLinkAndGo : Obligations.JumpsLinkAndGo := by
  refine fun s rd rs1 off imm f3 => ⟨?jal, fun hf3 => ?jalr⟩
  case jal => exact exists_resultIs_of_jump rfl (natCast_toNat_jumpTarget s off)
  case jalr =>
    have he : exec (.jalr rd rs1 imm f3) s = retire rd s.pcPlus4 (s.basePlus rs1 imm) s :=
      (exec_jalr rd rs1 imm f3 s).trans (execJalr_accepted rd rs1 imm f3 s hf3)
    exact exists_resultIs_of_jump he (effectiveAddress s rs1 imm)
end

section
/-! SUPPORT. The upper immediate as a number (`46_upper_immediate.md` R210). -/

namespace Sys2Proof.Machine

/-- Twelve zeros below the immediate multiply it by 2^12. -/
theorem toNat_upperImm (imm : BitVec 20) : (upperImm imm).toNat = imm.toNat * 2 ^ 12 := by
  rw [upperImm, BitVec.toNat_append, BitVec.toNat_ofNat, Nat.zero_mod, Nat.or_zero, Nat.shiftLeft_eq]

end Sys2Proof.Machine
end

section
/-! The obligations of `46_upper_immediate.md`. -/

open Sys2Proof Sys2Proof.Machine

/-- Settles O42: LUI's result is the upper immediate itself, AUIPC's the ALU's sum of it and the pc. -/
theorem upperImmediates : Obligations.UpperImmediates := by
  refine fun s rd imm => ⟨exists_resultIs rfl ?lui, exists_resultIs rfl ?auipc⟩
  case lui => exact toNat_upperImm imm
  case auipc => rw [aluAdd, BitVec.toNat_add, toNat_upperImm]
end

section
/-! SUPPORT. Program load (`70_reset_and_hazards.md` R264): what the image reads as and where its cells stand. The
invariant of `10_state.md` R42 under each launch action (R264, R266). -/

namespace Sys2Proof.Machine

/-! ## The image -/

/-- Word `k` of an image stands `4 * k` bytes above its start, and a word it does not cover is 0 (decision D14). -/
theorem readWord_imageFrom (ws : List Word) (a k : Nat) : (imageFrom a ws).readWord (a + 4 * k) = ws.getD k 0 := by
  induction ws generalizing a k with
  | nil =>
    rw [List.getD_nil]
    exact wordOfBytes_byteOf 0
  | cons w ws ih =>
    rw [imageFrom]
    cases k with
    | zero => exact readWord_writeWord_same _ a w
    | succ k =>
      have hnext : a + 4 * (k + 1) = (a + 4) + 4 * k := by omega
      rw [readWord_writeWord_apart _ _ _ _ (.inr (by omega)), hnext, ih, List.getD_cons_succ]

theorem wf_imageFrom (ws : List Word) (a : Nat) : (imageFrom a ws).wf = true := by
  induction ws generalizing a with
  | nil => rfl
  | cons w ws ih => exact wf_writeWord _ a w (ih (a + 4))

/-- An image that ends inside a capacity has every cell inside it. -/
theorem inside_imageFrom {n : Nat} (ws : List Word) (a : Nat) (h : a + 4 * ws.length ≤ n) :
    ∀ c ∈ imageFrom a ws, c.1 < n := by
  induction ws generalizing a with
  | nil => exact nofun
  | cons w ws ih =>
    rw [List.length_cons] at h
    exact inside_writeWord _ a n w (by omega) (ih (a + 4) (by omega))

/-- The fetch at word address `4 * k` of instruction memory (`20_memory.md` R54). -/
theorem ifetch_at_word (s : State) {k : Nat} (hk : k < Config.maxProgramWords) :
    State.ifetch { s with pc := BitVec.ofNat 32 (4 * k) } = .ok (s.imem.readWord (4 * k)) := by
  rw [Config.maxProgramWords] at hk
  have hpc : (BitVec.ofNat 32 (4 * k)).toNat = 4 * k := by
    rw [BitVec.toNat_ofNat]
    exact Nat.mod_eq_of_lt (by omega)
  rcases ifetch_cases { s with pc := BitVec.ofNat 32 (4 * k) } with ⟨hn, _⟩ | ⟨_, hge, _⟩ | ⟨_, _, hf⟩
  · exact absurd hn (by rw [hpc]; omega)
  · exact absurd hge (by rw [hpc, Config.imemSize]; omega)
  · rw [hf, hpc]

/-! ## When a launch action answers a next state -/

theorem loadImage_next (ws : List Word) (s t : State) : loadImage ws s = .next t ↔
    ws.length ≤ Config.maxProgramWords ∧ t = { s with imem := imageFrom 0 ws } := by
  unfold loadImage
  split
  next h => exact iff_of_false nofun fun ht => absurd h ht.1.not_gt
  next h => rw [Host.Outcome.next.injEq, eq_comm, and_iff_right (not_lt.mp h)]

/-- A program source that loads does what the load of its words does. -/
theorem exists_loadImage_of_loadSource {text : List Char} {s t : State} (h : loadSource text s = .next t) :
    ∃ ws : List Word, loadImage ws s = .next t := by
  unfold loadSource at h
  split at h
  next ws _ => exact ⟨ws, h⟩
  next => cases h
  next => cases h

theorem presetReg_zero (v : Word) (s : State) : presetReg 0 v s = .refused .presetZeroRegister := if_pos rfl

theorem presetReg_next {r : Reg} {v : Word} {s t : State} (h : presetReg r v s = .next t) : t = s.writeReg r v := by
  unfold presetReg at h
  split at h
  · cases h
  · exact (Host.Outcome.next.inj h).symm

theorem presetByte_outside {a : Nat} {s : State} (ha : s.params.dmemSize ≤ a) (b : Byte) :
    presetByte a b s = .refused (.presetOutsideDataMemory a) := if_neg ha.not_gt

theorem presetByte_next (a : Nat) (b : Byte) (s t : State) : presetByte a b s = .next t ↔
    a < s.params.dmemSize ∧ t = { s with dmem := s.dmem.write a b } := by
  unfold presetByte
  split
  next h => rw [Host.Outcome.next.injEq, eq_comm, and_iff_right h]
  next h => exact iff_of_false nofun fun ht => h ht.1

/-! ## The invariant under each launch action -/

/-- The size of data memory bounds nothing while there is no data. -/
theorem inv_presetParams {s : State} (h : s.Inv) (hd : s.dmem = []) (ht : s.touched = []) (p : Params) :
    (presetParams p s).Inv :=
  { h with
    dmemInside := fun c hc => by simp [presetParams, hd] at hc
    touchedInside := fun a ha => by simp [presetParams, ht] at ha }

/-- An image of at most 8192 words fills instruction memory at most. -/
theorem inv_loadImage {ws : List Word} {s t : State} (h : s.Inv) (hl : loadImage ws s = .next t) : t.Inv := by
  obtain ⟨hlen, rfl⟩ := (loadImage_next ws s t).mp hl
  rw [Config.maxProgramWords] at hlen
  exact { h with
    imemCanonical := wf_imageFrom ws 0
    imemInside := inside_imageFrom ws 0 (by rw [Config.imemSize]; omega) }

/-- A preset byte lies inside data memory. -/
theorem inv_presetByte {a : Nat} {b : Byte} {s t : State} (h : s.Inv) (hp : presetByte a b s = .next t) : t.Inv := by
  obtain ⟨ha, rfl⟩ := (presetByte_next a b s t).mp hp
  refine { h with
    dmemCanonical := wf_write _ a b h.dmemCanonical
    dmemInside := fun c hc => ?_ }
  rcases mem_write _ a b c hc with rfl | hc
  · exact ha
  · exact h.dmemInside c hc

end Sys2Proof.Machine
end

section
/-! The obligations of `70_reset_and_hazards.md`. -/

open Sys2Proof Sys2Proof.Machine

/-- Settles O3: the fetch at `4 * k` reads word `k` of the image, which is 0 beyond the program. -/
theorem loadedProgramIsFetched : Obligations.LoadedProgramIsFetched := by
  intro ws s hlen
  have hfetch : ∀ k < 8192,
      State.ifetch { s with imem := imageFrom 0 ws, pc := BitVec.ofNat 32 (4 * k) } = .ok (ws.getD k 0) := by
    intro k hk
    have hread : (imageFrom 0 ws).readWord (4 * k) = ws.getD k 0 := by simpa using readWord_imageFrom ws 0 k
    rw [← hread]
    exact ifetch_at_word { s with imem := imageFrom 0 ws } hk
  refine ⟨imageFrom 0 ws, (loadImage_next ws s _).mpr ⟨hlen, rfl⟩, fun k hk => ?covered, fun k hk hlt => ?beyond⟩
  case covered => rw [hfetch k (by omega), List.getD_eq_getElem ws 0 hk]
  case beyond => rw [hfetch k hlt, List.getD_eq_default ws 0 hk]

/-- Settles O5: each launch action changes one field, inside its memory's capacity; register 0 is never written. -/
theorem launchKeepsTheInvariant : Obligations.LaunchKeepsTheInvariant := by
  refine ⟨inv_presetParams resetMeetsTheInvariant.1 rfl rfl, fun p s h hd ht => inv_presetParams h hd ht p,
    fun s h => ⟨fun ws t hl => inv_loadImage h hl, ?source, ?register, ?pc, fun a b t hp => inv_presetByte h hp,
      fun a b ha => presetByte_outside ha b, fun v => presetReg_zero v s⟩⟩
  case source =>
    intro text t hl
    obtain ⟨ws, hws⟩ := exists_loadImage_of_loadSource hl
    exact inv_loadImage h hws
  case register =>
    intro r v t hp
    obtain rfl := presetReg_next hp
    exact inv_writeReg h r v
  case pc =>
    intro v t hp
    obtain rfl := Host.Outcome.next.inj hp
    exact { h with }
end

section
/-! SUPPORT. The division corners under `DIV_CORNER_RULE = refuse` (`92_eei_decisions.md` D6). -/

namespace Sys2Proof.Machine

theorem divisionCorner_eq_true_iff (a b : Word) :
    divisionCorner a b = true ↔ b = 0 ∨ (a = 0x80000000#32 ∧ b = 0xFFFFFFFF#32) := by
  simp only [divisionCorner, Bool.or_eq_true, Bool.and_eq_true, decide_eq_true_eq]

/-- At a corner the rule `refuse` gives no result, whatever the ALU computes there. -/
theorem underCornerRule_refuse {a b : Word} (h : divisionCorner a b = true) (v : Word) :
    underCornerRule .refuse a b v = .error (.divisionCorner a b) := if_pos h

/-- The one fact behind DIV and REM alike: a withheld result is a refusal that names the operands. -/
theorem retireDivision_refused {s : State} {a b : Word} (hrule : s.params.divCorner = .refuse)
    (h : divisionCorner a b = true) (rd : Reg) (v : Word) :
    retireDivision rd (underCornerRule s.params.divCorner a b v) s = .refused (.divisionCorner a b) := by
  rw [hrule, underCornerRule_refuse h, retireDivision]

end Sys2Proof.Machine
end

section
/-! The obligation of `92_eei_decisions.md`. -/

open Sys2Proof Sys2Proof.Machine

/-- Settles O41: both operand pairs are corners, where the rule withholds the quotient and the remainder alike. -/
theorem divisionCornersRefused : Obligations.DivisionCornersRefused := by
  intro s rd rs1 rs2 hrule hpair
  have hcorner := (divisionCorner_eq_true_iff _ _).mpr hpair
  exact ⟨retireDivision_refused hrule hcorner rd _, retireDivision_refused hrule hcorner rd _⟩
end
